-- ==== Sys2Proof/Word.lean ====
section
/-! DEFINITION. The word and byte types of rule R7 of 00_scope.md and the natural-number operators of R14.
Words are unsigned 64-bit vectors: `^^^`, `&&&`, `>>>` and `<<<` of `BitVec 64` are the `^`, `&`, `>>` and `<<` of R14. -/

namespace Sys2Proof

/-- A 64-bit unsigned word (R7). -/
abbrev Word := BitVec 64

/-- One byte of the KEY, MSG and DIGEST regions (20_memory.md R66). -/
abbrev Byte := BitVec 8

/-- A chaining value: c = 16 words (00_scope.md R8, R19). -/
abbrev Cv := Vector Word 16

/-- A compression input or a window: n = 89 words (00_scope.md R8). -/
abbrev Words89 := Vector Word 89

/-- The array of n elements whose element j is `f j` (00_scope.md R15). Irreducible, so that no proof expands it element
by element: `tabulate_getElem` says all there is to say. -/
@[irreducible] def tabulate {α : Type} {n : Nat} (f : Fin n → α) : Vector α n := Vector.ofFn f

@[simp] theorem tabulate_getElem {α : Type} {n : Nat} (f : Fin n → α) (j : Nat) (h : j < n) :
    (tabulate f)[j] = f ⟨j, h⟩ := by
  simp [tabulate]

/-- `ceil(a / b)` of R14 for b > 0: the least q with q·b >= a. -/
def ceilDiv (a b : Nat) : Nat := (a + b - 1) / b

end Sys2Proof
end

