-- ==== Sys2Proof/Config.lean ====
section
/-! DEFINITION. What the platform fixes (MSG_CAP_BYTES, BASE) and the free values of the model. The `opaque` constants
have no body: no proof can see their values, so every theorem holds for all of them. -/

namespace Sys2Proof

/-- The platform's choice behind MSG_CAP_BYTES (00_scope.md R11, 92 D19): any natural number. Log entry 6. -/
opaque Config.msgCapChoice : Nat

/-- MSG_CAP_BYTES (00_scope.md R11): a multiple of 8 with 8 <= MSG_CAP_BYTES <= 2^61 - 8. As the choice ranges over
the naturals, this takes every such value and no other. DESIGN CHOICE, safe (log entry 6).
Irreducible, so that no proof computes with it: `Config.msgCapBytes_legal` says all there is to say. -/
@[irreducible] def Config.msgCapBytes : Nat := 8 * (1 + Config.msgCapChoice % (2 ^ 58 - 1))

/-- MSG_CAP_BYTES is legal (00_scope.md R11). -/
theorem Config.msgCapBytes_legal :
    Config.msgCapBytes % 8 = 0 ∧ 8 ≤ Config.msgCapBytes ∧ Config.msgCapBytes ≤ 2 ^ 61 - 8 := by
  have := Nat.mod_lt Config.msgCapChoice (show 0 < 2 ^ 58 - 1 by decide)
  unfold Config.msgCapBytes
  omega

/-- BASE, the platform base address of the register map (20_memory.md R60, 93 U13). No rule reads it. Log entry 7. -/
opaque Config.base : Nat

/-- The platform address at which offset `off` of the register map stands (20_memory.md R60). No step reads it: a host
access is given by its offset. -/
def Config.hostAddress (off : Nat) : Nat := Config.base + off

/-- ACC_CAP (44_cv_accumulator.md R240): how many chaining values LVL_IN and LVL_OUT each hold at most. -/
def Config.accCap : Nat := max 1 (ceilDiv Config.msgCapBytes 512)

/-- The free values HASH leaves in the window it makes undefined (43_tree_scheduler.md R208, 93 U5). Log entry 5. -/
opaque Config.undefinedWord : Nat → Word

end Sys2Proof
end

