-- ==== Sys2Proof/Machine/State.lean ====
section
/-! DEFINITION. The state of the block (10_state.md R20 to R45), the agents' remaining moves, and the state after reset
(70_reset_and_hazards.md R300, R301). -/

namespace Sys2Proof.Machine

/-- Why a step of the machine stops. No command's meaning stops. -/
inductive Fault where
  /-- Raised by `step` alone, when FAULT is non-empty and the host has no move left: the core has no step
  (20_memory.md R74, 60_exceptions.md R280) and such a state is never final (R312). Safe: the model stops (log entry 10). -/
  | noEnabledStep
deriving DecidableEq, Repr

/-- Why the model has no meaning for something. No command's meaning refuses (60_exceptions.md R270). -/
inductive Refusal where
  /-- An arm of `exec` whose command has no meaning yet. No arm raises it. Safe. -/
  | notModelled (mnemonic : String)
  /-- Raised by `step` alone, on a reset asserted while STATUS.BUSY = 1: "the model has no move for that"
  (70_reset_and_hazards.md R300, 93 U15). Safe: the model stops (log entry 11). -/
  | resetWhileBusy
deriving DecidableEq, Repr

/-- The named error codes of 60_exceptions.md R271 (STATUS bits 15:8). The reserved codes 0x0B to 0xFF are never
raised and have no constructor. -/
inductive ErrCode where
  | noError | cfgDigestLen | cfgKeyLen | cfgMode | cfgRounds | treeHeight | illegalCmd | notConfigured | msgTooLong
  | argRange | noWindow
deriving DecidableEq, Repr

/-- The model faults of 60_exceptions.md R279. -/
inductive ModelFault where
  | misaligned | unmapped | writeRo | readWo | busyAccess | undefinedRead | undefinedInput
deriving DecidableEq, Repr

/-- A storage element with its definedness bit (00_scope.md R17). The value behind a clear bit is never read. -/
structure Elem where
  value : Word
  defined : Bool
deriving DecidableEq, Repr

/-- The KEY and MSG bytes (10_state.md R28, R38), keyed by their offset in the register map: sorted by offset, no
repeats. A listed byte is defined; an unlisted byte is undefined and has no value (00_scope.md R17). -/
abbrev Memory := List Host.Cell

/-- STATUS (10_state.md R29). Its reserved bits have no storage and read 0 (R45). -/
structure Status where
  busy : Bool
  done : Bool
  err : Bool
  errcode : ErrCode
  pbValid : Bool
  digestValid : Bool
  cvValid : Bool
  winValid : Bool
deriving DecidableEq, Repr

/-- The parameter-block registers (10_state.md R31). STATUS.PB_VALID is their definedness bit (log entry 3). -/
structure ParamBlock where
  d : Word
  keylen : Word
  l : Word
  r : Word
  k : Vector Word 8
deriving DecidableEq, Repr

/-- The working window W, S_REG and STEP_CTR (10_state.md R33 to R35). STATUS.WIN_VALID is their definedness bit
(log entry 3). -/
structure Window where
  w : Words89
  sReg : Word
  stepCtr : Word
deriving DecidableEq, Repr

/-- The chaining-value accumulator (10_state.md R39, 44_cv_accumulator.md R240). -/
structure Accumulator where
  lvlIn : List Cv
  lvlOut : List Cv
  seqCv : Cv
  curLevel : Nat
deriving DecidableEq, Repr

/-- One move outside the core: a host access (20_memory.md R61), a pseudo-instruction of the host program notation
(30_encoding.md R101), a turn given to the core, or the reset event (70_reset_and_hazards.md R300). -/
inductive HostMove where
  /-- `MemWrite(off, width, v)`. -/
  | write (off width : Nat) (v : Word)
  /-- `MemRead(off, width)`. -/
  | read (off width : Nat)
  /-- `WAIT` (R101). -/
  | wait
  /-- `EXPECT_OK` (R101). -/
  | expectOk
  /-- `EXPECT_ERR code` (R101). -/
  | expectErr (code : Byte)
  /-- The core takes its step now, if it has one (20_memory.md R74). -/
  | coreTurn
  /-- The reset event. -/
  | reset
deriving DecidableEq, Repr

/-- The host agent and the schedule: the model's own fields (log entries 1 and 12). -/
structure HostAgent where
  /-- The moves still to be made, the next one first. -/
  moves : List HostMove
  /-- What the host's reads gave, oldest first; `none` for a read that returned no value (R63, R70). -/
  reads : List (Option Word)
  /-- A `require` of the host program failed (R101). -/
  failed : Bool
deriving DecidableEq, Repr

/-- The state of the block (R20), with the model's own fields last. -/
structure State where
  /-- CFG_D (R21). -/
  cfgD : Word
  /-- CFG_KEYLEN (R22). -/
  cfgKeylen : Word
  /-- CFG_L (R23). -/
  cfgL : Word
  /-- CFG_R (R24). -/
  cfgR : Word
  /-- CFG_FLAGS bit 0, R_OVERRIDE; the other bits have no storage (R25, R45). -/
  rOverride : Bool
  /-- MSG_LEN (R26). -/
  msgLen : Word
  /-- ENC_LEVEL (R27). -/
  encLevel : Word
  /-- ENC_INDEX (R27). -/
  encIndex : Word
  /-- ENC_Z (R27). -/
  encZ : Word
  /-- ENC_P (R27). -/
  encP : Word
  /-- The KEY and MSG regions (R28, R38). -/
  mem : Memory
  /-- STATUS (R29). -/
  status : Status
  /-- PENDING (R30). -/
  pending : Elem
  /-- PB_D, PB_KEYLEN, PB_L, PB_R, PB_K (R31). -/
  pb : ParamBlock
  /-- N_BUF (R32). -/
  nBuf : Vector Elem 89
  /-- W, S_REG, STEP_CTR (R33 to R35). -/
  win : Window
  /-- CV_OUT (R36). -/
  cvOut : Cv
  /-- DIGEST (R37). -/
  digest : Vector Word 8
  /-- The accumulator (R39). -/
  acc : Accumulator
  /-- FAULT (R40): the model faults recorded so far, without repeats, the earliest first. -/
  fault : List ModelFault
  /-- The model's own: which free value is taken next (log entry 5). -/
  freeIndex : Nat
  /-- The model's own: the host agent and the schedule (log entry 1). -/
  host : HostAgent
deriving DecidableEq, Repr

/-- FAULT is empty. -/
def State.faultFree (s : State) : Bool := s.fault.isEmpty

/-- An element whose definedness bit is clear (R17). The 0 behind it is a DESIGN CHOICE, unsafe (log entry 4). -/
def Elem.undef : Elem := ⟨0, false⟩

/-- STATUS after reset: 0 (R29, R300). -/
def Status.reset : Status :=
  { busy := false, done := false, err := false, errcode := .noError,
    pbValid := false, digestValid := false, cvValid := false, winValid := false }

/-- The state after reset, with FAULT empty (R300, R301). Where the table says "undefined", the definedness bit is
clear, the valid bit that serves as one is 0, or no byte is listed; the zeros behind them and the accumulator's
contents are a DESIGN CHOICE, unsafe (log entry 4). The host has no move (log entry 2). -/
def State.reset : State :=
  { cfgD := 0, cfgKeylen := 0, cfgL := 64, cfgR := 0, rOverride := false, msgLen := 0,
    encLevel := 0, encIndex := 0, encZ := 0, encP := 0,
    mem := [],
    status := Status.reset,
    pending := Elem.undef,
    pb := { d := 0, keylen := 0, l := 0, r := 0, k := Vector.replicate 8 0 },
    nBuf := Vector.replicate 89 Elem.undef,
    win := { w := Vector.replicate 89 0, sReg := 0, stepCtr := 0 },
    cvOut := Vector.replicate 16 0,
    digest := Vector.replicate 8 0,
    acc := { lvlIn := [], lvlOut := [], seqCv := Vector.replicate 16 0, curLevel := 0 },
    fault := [],
    freeIndex := 0,
    host := { moves := [], reads := [], failed := false } }

end Sys2Proof.Machine
end

