-- ==== Sys2Proof/Machine/Flags.lean ====
section
/-! DEFINITION. STATUS (10_state.md R29): its word, the error codes of 60_exceptions.md R271, and what a CMD write and a
completion do to it (20_memory.md R73, 60_exceptions.md R273, R274). The block has no other flags (10_state.md R43). -/

namespace Sys2Proof.Machine

/-- The ERRCODE value of an error (60_exceptions.md R271). -/
def ErrCode.code : ErrCode → Byte
  | .noError => 0x00
  | .cfgDigestLen => 0x01
  | .cfgKeyLen => 0x02
  | .cfgMode => 0x03
  | .cfgRounds => 0x04
  | .treeHeight => 0x05
  | .illegalCmd => 0x06
  | .notConfigured => 0x07
  | .msgTooLong => 0x08
  | .argRange => 0x09
  | .noWindow => 0x0A

/-- The word the host reads from STATUS, most significant field first (10_state.md R29). -/
def Status.word (st : Status) : Word :=
  0#44 ++ BitVec.ofBool st.winValid ++ BitVec.ofBool st.cvValid ++ BitVec.ofBool st.digestValid ++
    BitVec.ofBool st.pbValid ++ st.errcode.code ++ 0#5 ++ BitVec.ofBool st.err ++ BitVec.ofBool st.done ++
    BitVec.ofBool st.busy

/-- STATUS after a CMD write (20_memory.md R73). -/
def Status.issued (st : Status) : Status :=
  { st with busy := true, done := false, err := false, errcode := .noError }

/-- STATUS after a success completion (60_exceptions.md R274). -/
def Status.succeeded (st : Status) : Status :=
  { st with busy := false, done := true, err := false, errcode := .noError }

/-- STATUS after an error completion (60_exceptions.md R273). -/
def Status.failed (code : ErrCode) (st : Status) : Status :=
  { st with busy := false, done := true, err := true, errcode := code }

end Sys2Proof.Machine
end

