-- ==== Sys2Proof/Machine/Ops.lean ====
section
/-! DEFINITION. The shared operations: the byte memory behind KEY and MSG, the three completions of a command
(60_exceptions.md R273, R274, R280), and the command latch (20_memory.md R73). -/

namespace Sys2Proof.Machine

/-- The canonical form: offsets strictly rising. No entry equals what an unlisted offset reads as, since an unlisted
byte is undefined and a listed one has a value. -/
def Memory.wf (m : Memory) : Bool := decide (m.Pairwise fun x y => x.1 < y.1)

/-- The byte at an offset, `none` when it is undefined (00_scope.md R17). -/
def Memory.read : Memory → Nat → Option Byte
  | [], _ => none
  | (x, b) :: m, a => if x = a then some b else Memory.read m a

/-- Writing a byte makes it defined (00_scope.md R17). -/
def Memory.write : Memory → Nat → Byte → Memory
  | [], a, b => [(a, b)]
  | (x, c) :: m, a, b =>
    if a < x then (a, b) :: (x, c) :: m
    else if a = x then (a, b) :: m
    else (x, c) :: Memory.write m a b

/-- Byte `a` of a word of a byte region: bits [63 - 8a : 56 - 8a] (20_memory.md R66). -/
def byteOfWord (v : Word) (a : Nat) : Byte := v.extractLsb' (56 - 8 * a) 8

/-- The word of eight bytes, byte 0 the most significant (20_memory.md R66, R68). -/
def wordOfBytes (x : Nat → Byte) : Word := x 0 ++ x 1 ++ x 2 ++ x 3 ++ x 4 ++ x 5 ++ x 6 ++ x 7

/-- The word at an offset of a byte region, `none` when any of its eight bytes is undefined (20_memory.md R66). -/
def Memory.readWord (m : Memory) (off : Nat) : Option Word :=
  if (List.range 8).all fun a => (Memory.read m (off + a)).isSome then
    some (wordOfBytes fun a => (Memory.read m (off + a)).getD 0)
  else none

/-- Writing a word of a byte region sets its eight bytes, most significant first (20_memory.md R66). -/
def Memory.writeWord (m : Memory) (off : Nat) (v : Word) : Memory :=
  (List.range 8).foldl (fun m a => Memory.write m (off + a) (byteOfWord v a)) m

/-- Bytes `off` to `off + n - 1`, `none` when any of them is undefined (20_memory.md R70). -/
def Memory.readBytes (m : Memory) : Nat → Nat → Option (List Byte)
  | _, 0 => some []
  | off, n + 1 =>
    match Memory.read m off, Memory.readBytes m (off + 1) n with
    | some b, some bs => some (b :: bs)
    | _, _ => none

/-- Recording a model fault (60_exceptions.md R279, R280): FAULT is a set, and nothing else changes. -/
def recordFault (f : ModelFault) (s : State) : State :=
  if f ∈ s.fault then s else { s with fault := s.fault ++ [f] }

/-- Recording several model faults. -/
def recordFaults (fs : List ModelFault) (s : State) : State := fs.foldl (fun s f => recordFault f s) s

/-- `raise Error(CODE)`: the error completion, the block's only trap entry (60_exceptions.md R273, R277). There is no
saved program counter, vector or mode. The way back is the next CMD write, `issueCommand` (R276, R278). -/
def raiseError (code : ErrCode) (s : State) : Host.Outcome State Fault Refusal :=
  .next { s with status := Status.failed code s.status }

/-- A command that ends with F_UNDEFINED_INPUT: FAULT is recorded and nothing else changes, so BUSY stays 1
(60_exceptions.md R280, 20_memory.md R70). -/
def undefinedInput (s : State) : Host.Outcome State Fault Refusal := .next (recordFault .undefinedInput s)

/-- The success completion of a command whose own writes are already in `s` (60_exceptions.md R274). -/
def succeed (s : State) : Host.Outcome State Fault Refusal := .next { s with status := Status.succeeded s.status }

/-- The effect of a CMD write with BUSY = 0: the word is latched and STATUS changes, nothing else (20_memory.md R73).
It also clears ERR and ERRCODE (60_exceptions.md R276). -/
def issueCommand (v : Word) (s : State) : State :=
  { s with pending := ⟨v, true⟩, status := Status.issued s.status }

/-- Every element of 10_state.md but FAULT at its reset value (70_reset_and_hazards.md R300). The model's own fields
are not the block's, and stay. -/
def resetBlock (s : State) : State :=
  { State.reset with fault := s.fault, freeIndex := s.freeIndex, host := s.host }

end Sys2Proof.Machine
end

