-- ==== Sys2Proof/Machine/Operands.lean ====
section
/-! DEFINITION. The operands the commands take from registers (30_encoding.md R102): N_BUF, the key bytes and the
message bytes, each with its definedness check (20_memory.md R70), and the byte-to-word conversion of R68. -/

namespace Sys2Proof.Machine

/-- Where the KEY region starts (20_memory.md R67). -/
def keyBase : Nat := 0x100

/-- Where the MSG region starts (20_memory.md R67). -/
def msgBase : Nat := 0x10000

/-- The 89 words of N_BUF, `none` when one is undefined (40_round_function.md R128, 41_compression.md R153). -/
def nBufWords (s : State) : Option Words89 :=
  if s.nBuf.toList.all fun e => e.defined then some (tabulate fun t => s.nBuf[t].value) else none

/-- KB[0 .. n-1], `none` when one is undefined (42_parameter_encoder.md R178). -/
def keyBytes (s : State) (n : Nat) : Option (List Byte) := Memory.readBytes s.mem keyBase n

/-- MSG[0 .. MSG_LEN-1], `none` when one is undefined (43_tree_scheduler.md R208). -/
def messageBytes (s : State) : Option (List Byte) := Memory.readBytes s.mem msgBase s.msgLen.toNat

/-- Word j of a byte string, each byte beyond its end taken as 0x00 (20_memory.md R68; the zero fill is that of
42_parameter_encoder.md R173 and 44_cv_accumulator.md R242). -/
def wordAt (bytes : List Byte) (j : Nat) : Word := wordOfBytes fun t => bytes.getD (8 * j + t) 0

/-- Words 0 to n-1 of a byte string (20_memory.md R68). -/
def wordsOf (bytes : List Byte) (n : Nat) : List Word := (List.range n).map (wordAt bytes)

end Sys2Proof.Machine
end

