-- ==== Sys2Proof/Machine/RoundFunction.lean ====
section
/-! DEFINITION. md6_round_function (40_round_function.md): the fixed tables R120 to R122, the round constants R123, the
step R124, its array form R125, the sequencer R126, and the commands LOAD_N, STEP, ROUND and READ_CV (R128 to R131). -/

namespace Sys2Proof.Machine

/-- The right-shift amounts RS (R121). -/
def rsTable : List Nat := [10, 5, 13, 10, 11, 12, 2, 7, 14, 15, 7, 13, 11, 7, 6, 12]

/-- The left-shift amounts LS (R121). -/
def lsTable : List Nat := [11, 24, 9, 16, 15, 9, 27, 15, 6, 2, 29, 8, 15, 5, 31, 9]

/-- RS[k mod 16] (R121). -/
def rightShift (k : Nat) : Nat := rsTable.getD (k % 16) 0

/-- LS[k mod 16] (R121). -/
def leftShift (k : Nat) : Nat := lsTable.getD (k % 16) 0

/-- S0, the round constant of round 0 (R122). -/
def s0 : Word := 0x0123456789abcdef

/-- SSTAR, the mask word of the round-constant update (R122). -/
def sStar : Word := 0x7311c2812425cfa0

/-- `rotl64(a, s)` for 1 <= s <= 63 (00_scope.md R14). -/
def rotl64 (a : Word) (s : Nat) : Word := (a <<< s) ^^^ (a >>> (64 - s))

/-- NEXT_S (R123). -/
def nextS (s : Word) : Word := rotl64 s 1 ^^^ (s &&& sStar)

/-- S_j, the round constant of round j (R123). -/
def roundConst : Nat → Word
  | 0 => s0
  | j + 1 => nextS (roundConst j)

/-- The two shifts of step k (R124), the left one modulo 2^64. -/
def mixShifts (k : Nat) (x : Word) : Word :=
  let y := x ^^^ (x >>> rightShift k)
  y ^^^ (y <<< leftShift k)

/-- The word step k appends (R124). -/
def stepWord (w : Words89) (s : Word) (k : Nat) : Word :=
  mixShifts k (s ^^^ w[0] ^^^ w[72] ^^^ (w[71] &&& w[68]) ^^^ (w[58] &&& w[22]))

/-- STEPFN (R124): W'[j] = W[j+1] for j < 88 and W'[88] is the new word. -/
def stepFn (w : Words89) (s : Word) (k : Nat) : Words89 :=
  let x := stepWord w s k
  tabulate fun j => if h : j.val < 88 then w[j.val + 1] else x

/-- STEP1, the sequencer step (R126). -/
def step1 (x : Window) : Window :=
  { w := stepFn x.w x.sReg x.stepCtr.toNat
    sReg := if (x.stepCtr.toNat + 1) % 16 = 0 then nextS x.sReg else x.sReg
    stepCtr := x.stepCtr + 1 }

/-- `repeat n: STEP1` (R16, R129). -/
def runSteps : Nat → Window → Window
  | 0, x => x
  | n + 1, x => runSteps n (step1 x)

/-- A freshly loaded window: W <- N, S_REG <- S0, STEP_CTR <- 0 (R128). -/
def loadWindow (n : Words89) : Window := { w := n, sReg := s0, stepCtr := 0 }

/-- W[73..88], the last c = 16 words (R131, 41_compression.md R150). -/
def lastWords (w : Words89) : Cv := tabulate fun t => w[73 + t.val]

/-- The next word of the working array, in the array form (R125): i is the array's length so far. -/
def nextArrayWord (a : List Word) : Word :=
  let i := a.length
  mixShifts (i - 89)
    (roundConst ((i - 89) / 16) ^^^ a.getD (i - 89) 0 ^^^ a.getD (i - 17) 0 ^^^
      (a.getD (i - 18) 0 &&& a.getD (i - 21) 0) ^^^ (a.getD (i - 31) 0 &&& a.getD (i - 67) 0))

/-- A[0 .. 89 + t - 1], the working array after t steps (R125). -/
def workingArray (n : Words89) : Nat → List Word
  | 0 => n.toList
  | t + 1 => workingArray n t ++ [nextArrayWord (workingArray n t)]

/-- LOAD_N (R128). -/
def execLoadN (s : State) : Host.Outcome State Fault Refusal :=
  match nBufWords s with
  | none => undefinedInput s
  | some n => succeed { s with win := loadWindow n, status := { s.status with winValid := true } }

/-- n sequencer steps of a loaded window, or NO_WINDOW: the common part of STEP and ROUND (R129, R130). -/
def stepWindow (n : Nat) (s : State) : Host.Outcome State Fault Refusal :=
  if s.status.winValid then succeed { s with win := runSteps n s.win } else raiseError .noWindow s

/-- STEP n (R129). -/
def execStep (n : Nat) (s : State) : Host.Outcome State Fault Refusal := stepWindow n s

/-- ROUND n (R130): 16·n steps. -/
def execRound (n : Nat) (s : State) : Host.Outcome State Fault Refusal := stepWindow (16 * n) s

/-- READ_CV (R131). -/
def execReadCv (s : State) : Host.Outcome State Fault Refusal :=
  if s.status.winValid then
    succeed { s with cvOut := lastWords s.win.w, status := { s.status with cvValid := true } }
  else raiseError .noWindow s

end Sys2Proof.Machine
end

