-- ==== Sys2Proof/Machine/Compression.lean ====
section
/-! DEFINITION. md6_compression_round (41_compression.md): the compression function R150 and COMPRESS R153. -/

namespace Sys2Proof.Machine

/-- The loop of R150: `count` steps, numbered from k, with round constant s. -/
def compressLoop : Nat → Nat → Words89 → Word → Words89
  | 0, _, w, _ => w
  | count + 1, k, w, s => compressLoop count (k + 1) (stepFn w s k) (if (k + 1) % 16 = 0 then nextS s else s)

/-- f_r(N), the compression function (R150). -/
def compressF (r : Nat) (n : Words89) : Cv := lastWords (compressLoop (16 * r) 0 n s0)

/-- COMPRESS (R153). -/
def execCompress (s : State) : Host.Outcome State Fault Refusal :=
  if s.status.pbValid then
    match nBufWords s with
    | none => undefinedInput s
    | some n =>
      let win := runSteps (16 * s.pb.r.toNat) (loadWindow n)
      succeed { s with
        win := win
        cvOut := lastWords win.w
        status := { s.status with winValid := true, cvValid := true } }
  else raiseError .notConfigured s

end Sys2Proof.Machine
end

