-- ==== Sys2Proof/Machine/ParameterEncoder.lean ====
section
/-! DEFINITION. md6_parameter_encoder (42_parameter_encoder.md): validation and the round count R170 to R172, the header
parts R173 to R177 with the layouts of 30_encoding.md R96 and R97, and CONFIGURE and ENCODE_NODE (R178, R179). -/

namespace Sys2Proof.Machine

/-- DEFAULT_R(d, keylen) (R171): floor division, and a minimum of 80 when a key is given (90_conflicts.md C2). -/
def defaultRounds (d keylen : Nat) : Nat := if keylen = 0 then 40 + d / 4 else max 80 (40 + d / 4)

/-- The first check of R170 that fails, in its order; `none` when all four hold. -/
def configError (s : State) : Option ErrCode :=
  if s.cfgD.toNat = 0 ∨ 512 < s.cfgD.toNat then some .cfgDigestLen
  else if 64 < s.cfgKeylen.toNat then some .cfgKeyLen
  else if 64 < s.cfgL.toNat then some .cfgMode
  else if s.rOverride ∧ 255 < s.cfgR.toNat then some .cfgRounds
  else none

/-- The rounds in force (R172). -/
def roundsInForce (s : State) : Word :=
  if s.rOverride then s.cfgR else BitVec.ofNat 64 (defaultRounds s.cfgD.toNat s.cfgKeylen.toNat)

/-- The key words K of the key bytes, zero-padded to 64 bytes (R173). -/
def keyWords (key : List Byte) : Vector Word 8 := tabulate fun j => wordAt key j

/-- The constant Q (R174). -/
def qTable : List Word :=
  [ 0x7311c2812425cfa0, 0x6432286434aac8e7, 0xb60450e9ef68b7c1, 0xe8fb23908d9f06f1, 0xdd2e76cba691e5bf,
    0x0cd0d63b2c30bc41, 0x1f8ccf6823058f8a, 0x54e5ed5b88e3775d, 0x4ad12aae0a6d6031, 0x3e7f16bb88222e0d,
    0x8af8671d3fb50c2c, 0x995ad1178bd25c31, 0xc878c1dd04c4b633, 0x3b72066c7a1552ac, 0x0d6f3522631effcb ]

/-- The control word V(r, L, z, p, keylen, d) (30_encoding.md R96). -/
def controlWord (r l z p keylen d : Word) : Word :=
  (r <<< 48) ^^^ (l <<< 40) ^^^ (z <<< 36) ^^^ (p <<< 20) ^^^ (keylen <<< 12) ^^^ d

/-- The node identifier U(level, index) (30_encoding.md R97). -/
def nodeIdent (level index : Word) : Word := (level <<< 56) ^^^ index

/-- HDR(level, index, z, p), the 25 header words under a parameter block (R177). -/
def header (pb : ParamBlock) (level index z p : Word) : List Word :=
  qTable ++ pb.k.toList ++ [nodeIdent level index, controlWord pb.r pb.l z p pb.keylen pb.d]

/-- CONFIGURE (R178). -/
def execConfigure (s : State) : Host.Outcome State Fault Refusal :=
  match configError s with
  | some code => raiseError code s
  | none =>
    match keyBytes s s.cfgKeylen.toNat with
    | none => undefinedInput s
    | some key =>
      succeed { s with
        pb := { d := s.cfgD, keylen := s.cfgKeylen, l := s.cfgL, r := roundsInForce s, k := keyWords key }
        status := { s.status with pbValid := true } }

/-- The ranges ENCODE_NODE checks (R179). -/
def encodeArgsInRange (s : State) : Bool :=
  decide (s.encLevel.toNat ≤ 255) && decide (s.encIndex.toNat < 2 ^ 56) && decide (s.encZ.toNat ≤ 1) &&
    decide (s.encP.toNat ≤ 4096)

/-- ENCODE_NODE (R179): N_BUF[0..24] <- HDR, N_BUF[25..88] unchanged. -/
def execEncodeNode (s : State) : Host.Outcome State Fault Refusal :=
  if s.status.pbValid then
    if encodeArgsInRange s then
      let hdr := header s.pb s.encLevel s.encIndex s.encZ s.encP
      succeed { s with
        nBuf := tabulate fun t => if t.val < 25 then ⟨hdr.getD t.val 0, true⟩ else s.nBuf[t] }
    else raiseError .argRange s
  else raiseError .notConfigured s

end Sys2Proof.Machine
end

