-- ==== Sys2Proof/Machine/TreeScheduler.lean ====
section
/-! DEFINITION. md6_tree_scheduler (43_tree_scheduler.md), as the spec writes it, over bit strings: padding R202, tree
level R203, sequential pass R204, top level R205, and the digest R207. HASH computes the same root through the
accumulator (Machine/Accumulator.lean, 44_cv_accumulator.md R249). -/

namespace Sys2Proof.Machine

/-- One compression call of a HASH: node (level, index), its flag z, its padding count p, and its 64 data words B
(00_scope.md R19, 41_compression.md R154). -/
structure NodeCall where
  level : Nat
  index : Nat
  z : Nat
  p : Nat
  data : List Word
deriving DecidableEq, Repr

/-- The 89-word input HDR(level, index, z, p) || B of a node (R177, 41_compression.md R154). -/
def nodeInput (pb : ParamBlock) (c : NodeCall) : Words89 :=
  let words := header pb (BitVec.ofNat 64 c.level) (BitVec.ofNat 64 c.index) (BitVec.ofNat 64 c.z) (BitVec.ofNat 64 c.p)
    ++ c.data
  tabulate fun t => words.getD t.val 0

/-- The node's chaining value f_r(HDR || B), with r = PB_R (41_compression.md R154). -/
def compressNode (pb : ParamBlock) (c : NodeCall) : Cv := compressF pb.r.toNat (nodeInput pb c)

/-- The bits of a vector, most significant first (00_scope.md R15). -/
def bitsMsbFirst {n : Nat} (v : BitVec n) : List Bool := (List.range n).map fun t => v.getMsbD t

/-- The message bit string: byte 0 first, each byte's bit 7 first (R200). -/
def bitsOfBytes (bytes : List Byte) : List Bool := bytes.flatMap bitsMsbFirst

/-- A chaining value as a bit string: word 0 first, each word's bit 63 first (00_scope.md R15). -/
def bitsOfCv (c : Cv) : List Bool := c.toList.flatMap bitsMsbFirst

/-- The number a bit string stands for, most significant bit first (00_scope.md R15). -/
def numberOfBits (x : List Bool) : Nat := x.foldl (fun n b => 2 * n + b.toNat) 0

/-- Word t of a bit string (00_scope.md R15). -/
def wordOfBits (x : List Bool) (t : Nat) : Word := BitVec.ofNat 64 (numberOfBits ((x.drop (64 * t)).take 64))

/-- A block of 64k bits as k words (43_tree_scheduler.md, preamble). -/
def wordsOfBits (x : List Bool) : List Word := (List.range (x.length / 64)).map (wordOfBits x)

/-- A 1024-bit string as a chaining value. -/
def cvOfBits (x : List Bool) : Cv := tabulate fun t => wordOfBits x t.val

/-- The block count j of PAD(X, cap) for a string of `len` bits (R202). -/
def padCount (len cap : Nat) : Nat := max 1 (ceilDiv len cap)

/-- PAD(X, cap): the blocks D_i with their padding counts p_i, in order (R202). -/
def padBlocks (x : List Bool) (cap : Nat) : List (List Bool × Nat) :=
  let j := padCount x.length cap
  let fill := j * cap - x.length
  let y := x ++ List.replicate fill false
  (List.range j).map fun i => ((y.drop (cap * i)).take cap, if i + 1 < j then 0 else fill)

/-- The compression calls of PAR(X, level), in index order (R203). -/
def parCalls (x : List Bool) (level : Nat) : List NodeCall :=
  let blocks := padBlocks x 4096
  blocks.zipIdx.map fun b =>
    { level := level, index := b.2, z := if blocks.length = 1 then 1 else 0, p := b.1.2, data := wordsOfBits b.1.1 }

/-- PAR(X, level): the nodes' chaining values as one bit string (R203). -/
def par (pb : ParamBlock) (x : List Bool) (level : Nat) : List Bool :=
  (parCalls x level).flatMap fun c => bitsOfCv (compressNode pb c)

/-- Node i of a sequential pass of j nodes, with predecessor C (R204). -/
def seqCall (level j i : Nat) (c : Cv) (block : List Bool × Nat) : NodeCall :=
  { level := level, index := i, z := if i + 1 = j then 1 else 0, p := block.2, data := c.toList ++ wordsOfBits block.1 }

/-- The rest of a sequential pass, from node i on (R204). -/
def seqFrom (pb : ParamBlock) (level j : Nat) : List (List Bool × Nat) → Nat → Cv → Cv
  | [], _, c => c
  | b :: rest, i, c => seqFrom pb level j rest (i + 1) (compressNode pb (seqCall level j i c b))

/-- The compression calls of the rest of a sequential pass (R204). -/
def seqCallsFrom (pb : ParamBlock) (level j : Nat) : List (List Bool × Nat) → Nat → Cv → List NodeCall
  | [], _, _ => []
  | b :: rest, i, c =>
    seqCall level j i c b :: seqCallsFrom pb level j rest (i + 1) (compressNode pb (seqCall level j i c b))

/-- 16 zero words, the initial value of a chain (R204, 90_conflicts.md C7). -/
def zeroCv : Cv := Vector.replicate 16 0

/-- SEQ(X, level) (R204). -/
def seq (pb : ParamBlock) (x : List Bool) (level : Nat) : Cv :=
  seqFrom pb level (padBlocks x 3072).length (padBlocks x 3072) 0 zeroCv

/-- The loop of TOP at a level with `n` levels left before the sequential one, so that level + n = L + 1 (R205). -/
def topFrom (pb : ParamBlock) : Nat → Nat → List Bool → Cv
  | 0, level, x => seq pb x level
  | n + 1, level, x =>
    let y := par pb x level
    if y.length = 1024 then cvOfBits y else topFrom pb n (level + 1) y

/-- TOP(M), the root chaining value of a message (R205). -/
def top (pb : ParamBlock) (message : List Bool) : Cv := topFrom pb pb.l.toNat 1 message

/-- The compression calls of the loop of TOP, in evaluation order (R205, R212). -/
def topCallsFrom (pb : ParamBlock) : Nat → Nat → List Bool → List NodeCall
  | 0, level, x => seqCallsFrom pb level (padBlocks x 3072).length (padBlocks x 3072) 0 zeroCv
  | n + 1, level, x =>
    let y := par pb x level
    if y.length = 1024 then parCalls x level else parCalls x level ++ topCallsFrom pb n (level + 1) y

/-- The compression calls of TOP(M), in evaluation order (R205, R212). -/
def topCalls (pb : ParamBlock) (message : List Bool) : List NodeCall := topCallsFrom pb pb.l.toNat 1 message

/-- The big-endian number of a chaining value (00_scope.md R15, R207). -/
def numberOfCv (c : Cv) : Nat := c.toList.foldl (fun n v => n * 2 ^ 64 + v.toNat) 0

/-- DIGEST_BYTES(CV, d): the last d bits of CV, left-justified in ceil(d/8) bytes (R207). -/
def digestBytes (c : Cv) (d : Nat) : List Byte :=
  let nb := ceilDiv d 8
  let g := numberOfCv c % 2 ^ d * 2 ^ (8 * nb - d)
  (List.range nb).map fun j => BitVec.ofNat 8 (g / 2 ^ (8 * (nb - 1 - j)))

/-- The DIGEST words: the digest bytes, then zeros (R208, 10_state.md R37). -/
def digestWords (c : Cv) (d : Nat) : Vector Word 8 := tabulate fun t => wordAt (digestBytes c d) t.val

end Sys2Proof.Machine
end

