-- ==== Sys2Proof/Machine/Accumulator.lean ====
section
/-! DEFINITION. chaining_value_accumulator (44_cv_accumulator.md R240 to R246): level storage, grouping, the level
barrier and the sequential chain register, and the command HASH (43_tree_scheduler.md R208) that runs it. -/

namespace Sys2Proof.Machine

/-- The accumulator at the start of HASH (R241). -/
def accStart : Accumulator := { lvlIn := [], lvlOut := [], seqCv := zeroCv, curLevel := 1 }

/-- Chaining value n of a level, or 16 zero words beyond its end (R243, R245). -/
def cvOrZero (level : List Cv) (n : Nat) : Cv := level.getD n zeroCv

/-- The data words of bytes `first` to `first + 8·words - 1` of the message, bytes at or above MSG_LEN taken as 0x00
(R242, R245). -/
def messageData (msg : List Byte) (first words : Nat) : List Word := wordsOf ((msg.drop first).take (8 * words)) words

/-- 8 × the count of bytes `first` to `first + size - 1` that are at or above MSG_LEN (R242, R245). -/
def messagePadding (msg : List Byte) (first size : Nat) : Nat := 8 * (size - min size (msg.length - first))

/-- `group` consecutive chaining values from `first` on, missing ones zero (R243, R245). -/
def groupData (level : List Cv) (first group : Nat) : List Word :=
  (List.range group).flatMap fun g => (cvOrZero level (first + g)).toList

/-- 1024 × the number of missing chaining values of a group (R243, R245). -/
def groupPadding (level : List Cv) (first group : Nat) : Nat := 1024 * (group - min group (level.length - first))

/-- The number of nodes of the PAR level now being computed (R242, R243). -/
def parNodes (msg : List Byte) (acc : Accumulator) : Nat :=
  if acc.curLevel = 1 then max 1 (ceilDiv msg.length 512) else ceilDiv acc.lvlIn.length 4

/-- Node i of the PAR level now being computed (R242, R243); z = 1 only on a level's sole node (43_tree_scheduler.md
R203). -/
def parNode (msg : List Byte) (acc : Accumulator) (i : Nat) : NodeCall :=
  { level := acc.curLevel
    index := i
    z := if parNodes msg acc = 1 then 1 else 0
    p := if acc.curLevel = 1 then messagePadding msg (512 * i) 512 else groupPadding acc.lvlIn (4 * i) 4
    data := if acc.curLevel = 1 then messageData msg (512 * i) 64 else groupData acc.lvlIn (4 * i) 4 }

/-- ACC_APPEND: a PAR node's output goes to the next free slot of LVL_OUT (R244). -/
def accAppend (acc : Accumulator) (c : Cv) : Accumulator := { acc with lvlOut := acc.lvlOut ++ [c] }

/-- ACC_ADVANCE: the level barrier (R244). -/
def accAdvance (acc : Accumulator) : Accumulator :=
  { acc with lvlIn := acc.lvlOut, lvlOut := [], curLevel := acc.curLevel + 1 }

/-- A PAR level: its nodes in ascending index order (R244). -/
def accPar (pb : ParamBlock) (msg : List Byte) (acc : Accumulator) : Accumulator :=
  (List.range (parNodes msg acc)).foldl (fun a i => accAppend a (compressNode pb (parNode msg a i))) acc

/-- The number of nodes of the SEQ pass (R245): PB_L = 0 takes its data from the message. -/
def seqNodes (msg : List Byte) (acc : Accumulator) : Nat :=
  if acc.curLevel = 1 then max 1 (ceilDiv msg.length 384) else ceilDiv acc.lvlIn.length 3

/-- Node i of the SEQ pass: B = SEQ_CV || D_i (R245); z = 1 only on the last node (43_tree_scheduler.md R204). -/
def seqNode (msg : List Byte) (acc : Accumulator) (i : Nat) : NodeCall :=
  { level := acc.curLevel
    index := i
    z := if i + 1 = seqNodes msg acc then 1 else 0
    p := if acc.curLevel = 1 then messagePadding msg (384 * i) 384 else groupPadding acc.lvlIn (3 * i) 3
    data := acc.seqCv.toList ++
      if acc.curLevel = 1 then messageData msg (384 * i) 48 else groupData acc.lvlIn (3 * i) 3 }

/-- The SEQ pass: SEQ_CV <- C_i after node i (R245). -/
def accSeq (pb : ParamBlock) (msg : List Byte) (acc : Accumulator) : Accumulator :=
  (List.range (seqNodes msg acc)).foldl (fun a i => { a with seqCv := compressNode pb (seqNode msg a i) }) acc

/-- The levels from CUR_LEVEL on, `n` of them PAR levels before the SEQ level, so that CUR_LEVEL + n = PB_L + 1: the
accumulator at the end and the root (R244 to R246). -/
def accLevels (pb : ParamBlock) (msg : List Byte) : Nat → Accumulator → Accumulator × Cv
  | 0, acc => let a := accSeq pb msg acc; (a, a.seqCv)
  | n + 1, acc =>
    let a := accPar pb msg acc
    if a.lvlOut.length = 1 then (a, cvOrZero a.lvlOut 0) else accLevels pb msg n (accAdvance a)

/-- The whole run of the accumulator over a message: its end state and the root chaining value (R241, R246). -/
def accRun (pb : ParamBlock) (msg : List Byte) : Accumulator × Cv := accLevels pb msg pb.l.toNat accStart

/-- The window HASH leaves undefined: free values (R208, log entry 5). -/
def undefinedWindow (index : Nat) : Window :=
  { w := tabulate fun j => Config.undefinedWord (index + j.val)
    sReg := Config.undefinedWord (index + 89)
    stepCtr := Config.undefinedWord (index + 90) }

/-- HASH (43_tree_scheduler.md R208). The accumulator keeps the run's end state, which nothing reads (log entry 8). -/
def execHash (s : State) : Host.Outcome State Fault Refusal :=
  if s.status.pbValid then
    if Config.msgCapBytes < s.msgLen.toNat then raiseError .msgTooLong s
    else
      match messageBytes s with
      | none => undefinedInput s
      | some msg =>
        let run := accRun s.pb msg
        succeed { s with
          digest := digestWords run.2 s.pb.d.toNat
          cvOut := run.2
          acc := run.1
          win := undefinedWindow s.freeIndex
          freeIndex := s.freeIndex + 91
          status := { s.status with digestValid := true, cvValid := true, winValid := false } }
  else raiseError .notConfigured s

end Sys2Proof.Machine
end

