-- ==== Sys2Proof/Machine/Control.lean ====
section
/-! DEFINITION. The control commands NOP and SOFT_RESET (45_control.md). -/

namespace Sys2Proof.Machine

/-- NOP (R260): no effect but the success completion. -/
def execNop (s : State) : Host.Outcome State Fault Refusal := succeed s

/-- SOFT_RESET (R261): every element but STATUS and FAULT to its reset value, the valid bits to 0, then the success
completion. The rest of STATUS is the completion's. -/
def execSoftReset (s : State) : Host.Outcome State Fault Refusal :=
  succeed { resetBlock s with
    status := { s.status with pbValid := false, digestValid := false, cvValid := false, winValid := false } }

end Sys2Proof.Machine
end

