-- ==== Sys2Proof/Syntax.lean ====
section
/-! DEFINITION. The commands of the block: one constructor per row of the opcode table (30_encoding.md R92). -/

namespace Sys2Proof

/-- A command. COUNT, the only operand in the command word (R91, R102), is a number of repetitions. -/
inductive Instr where
  /-- NOP, OP 0x00 (45_control.md R260). -/
  | nop
  /-- SOFT_RESET, OP 0x01 (45_control.md R261). -/
  | softReset
  /-- CONFIGURE, OP 0x02 (42_parameter_encoder.md R178). -/
  | configure
  /-- ENCODE_NODE, OP 0x03 (42_parameter_encoder.md R179). -/
  | encodeNode
  /-- COMPRESS, OP 0x04 (41_compression.md R153). -/
  | compress
  /-- HASH, OP 0x05 (43_tree_scheduler.md R208). -/
  | hash
  /-- LOAD_N, OP 0x06 (40_round_function.md R128). -/
  | loadN
  /-- STEP n, OP 0x07 with COUNT = n (40_round_function.md R129). -/
  | step (n : Nat)
  /-- ROUND n, OP 0x08 with COUNT = n (40_round_function.md R130). -/
  | round (n : Nat)
  /-- READ_CV, OP 0x09 (40_round_function.md R131). -/
  | readCv
deriving DecidableEq, Repr

end Sys2Proof
end

