-- ==== Sys2Proof/Machine/Dispatch.lean ====
section
/-! DEFINITION. One arm per command: its meaning. -/

namespace Sys2Proof.Machine

def exec (i : Instr) (s : State) : Host.Outcome State Fault Refusal :=
  match i with
  | .nop => Sys2Proof.Machine.execNop s
  | .softReset => Sys2Proof.Machine.execSoftReset s
  | .configure => Sys2Proof.Machine.execConfigure s
  | .encodeNode => Sys2Proof.Machine.execEncodeNode s
  | .compress => Sys2Proof.Machine.execCompress s
  | .hash => Sys2Proof.Machine.execHash s
  | .loadN => Sys2Proof.Machine.execLoadN s
  | .step n => Sys2Proof.Machine.execStep n s
  | .round n => Sys2Proof.Machine.execRound n s
  | .readCv => Sys2Proof.Machine.execReadCv s

end Sys2Proof.Machine
end

