-- ==== Sys2Proof/WellFormed.lean ====
section
/-! DEFINITION. Which commands a command word can carry: COUNT has 16 bits (30_encoding.md R90, R91). -/

namespace Sys2Proof

/-- A repeat count fits the 16-bit COUNT field (R91: 0 to 65535). -/
def countFits (n : Nat) : Bool := n < 65536

/-- A command that some command word encodes. Only STEP and ROUND carry an operand (R91, R102). -/
def Instr.wellFormed : Instr → Bool
  | .nop => true
  | .softReset => true
  | .configure => true
  | .encodeNode => true
  | .compress => true
  | .hash => true
  | .loadN => true
  | .step n => countFits n
  | .round n => countFits n
  | .readCv => true

end Sys2Proof
end

