-- ==== Sys2Proof/Decode.lean ====
section
/-! DEFINITION. Decoding a command word by the opcode table (30_encoding.md R90 to R93, R98) and encoding a command. -/

namespace Sys2Proof

/-- The field OP, bits 7:0 (R90). -/
def opField (w : Word) : BitVec 8 := w.extractLsb' 0 8

/-- The field RSV1, bits 15:8 (R90). -/
def rsv1Field (w : Word) : BitVec 8 := w.extractLsb' 8 8

/-- The field COUNT, bits 31:16 (R90, R91). -/
def countField (w : Word) : BitVec 16 := w.extractLsb' 16 16

/-- The field RSV2, bits 63:32 (R90). -/
def rsv2Field (w : Word) : BitVec 32 := w.extractLsb' 32 32

/-- One row of the opcode table R92: a word `cmd` selects it when `cmd & mask = pattern`. `make` turns the zero-extended
COUNT of R91 into the row's command. -/
structure CmdRow where
  pattern : Word
  mask : Word
  make : Nat → Instr

/-- The mask of a row whose whole word is fixed (COUNT must be 0). -/
def fixedMask : Word := 0xFFFFFFFFFFFFFFFF

/-- The mask of a row that leaves COUNT free. -/
def countMask : Word := 0xFFFFFFFF0000FFFF

/-- The opcode table (R92). -/
def cmdTable : List CmdRow :=
  [ ⟨0x0000000000000000, fixedMask, fun _ => .nop⟩,
    ⟨0x0000000000000001, fixedMask, fun _ => .softReset⟩,
    ⟨0x0000000000000002, fixedMask, fun _ => .configure⟩,
    ⟨0x0000000000000003, fixedMask, fun _ => .encodeNode⟩,
    ⟨0x0000000000000004, fixedMask, fun _ => .compress⟩,
    ⟨0x0000000000000005, fixedMask, fun _ => .hash⟩,
    ⟨0x0000000000000006, fixedMask, fun _ => .loadN⟩,
    ⟨0x0000000000000007, countMask, fun n => .step n⟩,
    ⟨0x0000000000000008, countMask, fun n => .round n⟩,
    ⟨0x0000000000000009, fixedMask, fun _ => .readCv⟩ ]

/-- A row selects a word (R92). -/
def CmdRow.selects (r : CmdRow) (w : Word) : Bool := w &&& r.mask == r.pattern

/-- Why a command word is illegal: the three cases of R98. -/
inductive IllegalWord where
  /-- OP is 0x0A to 0xFF. -/
  | unassignedOp
  /-- RSV1 or RSV2 is nonzero. -/
  | reservedNonzero
  /-- COUNT is nonzero on an OP other than STEP or ROUND. -/
  | countNonzero
deriving DecidableEq, Repr

/-- The case of R98 an illegal word falls under, the first of the three where it falls under several. -/
def illegalReason (w : Word) : IllegalWord :=
  if 0x0A ≤ (opField w).toNat then .unassignedOp
  else if rsv1Field w ≠ 0 ∨ rsv2Field w ≠ 0 then .reservedNonzero
  else .countNonzero

/-- Decoding (R93): the command of the row that selects the word, or the reason why none does. Total on all words. -/
def decode (w : Word) : Except IllegalWord Instr :=
  match cmdTable.find? fun r => r.selects w with
  | some r => .ok (r.make (countField w).toNat)
  | none => .error (illegalReason w)

/-- The OP of a command (R92). -/
def Instr.op : Instr → BitVec 8
  | .nop => 0x00
  | .softReset => 0x01
  | .configure => 0x02
  | .encodeNode => 0x03
  | .compress => 0x04
  | .hash => 0x05
  | .loadN => 0x06
  | .step _ => 0x07
  | .round _ => 0x08
  | .readCv => 0x09

/-- The COUNT of a command: its operand for STEP and ROUND, 0 for every other (R90). -/
def Instr.count : Instr → Nat
  | .nop => 0
  | .softReset => 0
  | .configure => 0
  | .encodeNode => 0
  | .compress => 0
  | .hash => 0
  | .loadN => 0
  | .step n => n
  | .round n => n
  | .readCv => 0

/-- The command word of a command: RSV2 = 0, COUNT, RSV1 = 0, OP, most significant field first (R90). -/
def encode (i : Instr) : Word := 0#32 ++ BitVec.ofNat 16 i.count ++ 0#8 ++ i.op

/-- A command is one 64-bit word (R90): the decoder's answer on the word whose bits are the low `nbits` bits of `w`. -/
def decodeTableWord (nbits w : Nat) : Option Instr := (decode (BitVec.ofNat 64 (w % 2 ^ nbits))).toOption

end Sys2Proof
end

