-- ==== Sys2Proof/Machine/RegisterMap.lean ====
section
/-! DEFINITION. The register map (30_encoding.md R94) with its access codes, and reading and writing what stands at an
offset (10_state.md R21 to R38, 20_memory.md R65 to R67, R73). -/

namespace Sys2Proof.Machine

/-- What one word of the register map is (R94). -/
inductive Element where
  | cmd | status | cfgD | cfgKeylen | cfgL | cfgR | cfgFlags | msgLen | encLevel | encIndex | encZ | encP
  | pbD | pbKeylen | pbL | pbR | stepCtr | sReg
  | key (t : Nat) | nBuf (t : Nat) | cvOut (t : Nat) | digest (t : Nat) | w (t : Nat) | msg (t : Nat)
deriving DecidableEq, Repr

/-- The access codes of 10_state.md. -/
inductive Access where
  | rw | ro | wo
deriving DecidableEq, Repr

/-- The scalar registers, words 0 to 17 of the map in order (R94). -/
def scalarElements : List Element :=
  [ .cmd, .status, .cfgD, .cfgKeylen, .cfgL, .cfgR, .cfgFlags, .msgLen, .encLevel, .encIndex, .encZ, .encP,
    .pbD, .pbKeylen, .pbL, .pbR, .stepCtr, .sReg ]

/-- The word of the map that the byte at an offset belongs to, `none` where R94 maps nothing. -/
def elementAt (off : Nat) : Option Element :=
  let t := off / 8
  if off < 0x090 then scalarElements[t]?
  else if off < 0x100 then none
  else if off < 0x140 then some (.key (t - 0x100 / 8))
  else if off < 0x200 then none
  else if off < 0x4C8 then some (.nBuf (t - 0x200 / 8))
  else if off < 0x500 then none
  else if off < 0x580 then some (.cvOut (t - 0x500 / 8))
  else if off < 0x5C0 then some (.digest (t - 0x580 / 8))
  else if off < 0x600 then none
  else if off < 0x8C8 then some (.w (t - 0x600 / 8))
  else if off < 0x10000 then none
  else if off < 0x10000 + Config.msgCapBytes then some (.msg (t - 0x10000 / 8))
  else none

/-- The access code of a word of the map (R94). -/
def Element.access : Element → Access
  | .cmd => .wo
  | .status => .ro
  | .cfgD => .rw
  | .cfgKeylen => .rw
  | .cfgL => .rw
  | .cfgR => .rw
  | .cfgFlags => .rw
  | .msgLen => .rw
  | .encLevel => .rw
  | .encIndex => .rw
  | .encZ => .rw
  | .encP => .rw
  | .pbD => .ro
  | .pbKeylen => .ro
  | .pbL => .ro
  | .pbR => .ro
  | .stepCtr => .ro
  | .sReg => .ro
  | .key _ => .rw
  | .nBuf _ => .rw
  | .cvOut _ => .ro
  | .digest _ => .ro
  | .w _ => .ro
  | .msg _ => .rw

/-- A value behind a valid bit that serves as its definedness bit (log entry 3). -/
def behind (valid : Bool) (v : Word) : Option Word := if valid then some v else none

/-- Word t of an array, `none` beyond its end. -/
def wordOf {n : Nat} (v : Vector Word n) (t : Nat) : Option Word := v[t]?

/-- The value of a word of the map, `none` where it is undefined (00_scope.md R17, 20_memory.md R70) or may not be read
at all (CMD). -/
def readElement (s : State) : Element → Option Word
  | .cmd => none
  | .status => some s.status.word
  | .cfgD => some s.cfgD
  | .cfgKeylen => some s.cfgKeylen
  | .cfgL => some s.cfgL
  | .cfgR => some s.cfgR
  | .cfgFlags => some ((BitVec.ofBool s.rOverride).setWidth 64)
  | .msgLen => some s.msgLen
  | .encLevel => some s.encLevel
  | .encIndex => some s.encIndex
  | .encZ => some s.encZ
  | .encP => some s.encP
  | .pbD => behind s.status.pbValid s.pb.d
  | .pbKeylen => behind s.status.pbValid s.pb.keylen
  | .pbL => behind s.status.pbValid s.pb.l
  | .pbR => behind s.status.pbValid s.pb.r
  | .stepCtr => behind s.status.winValid s.win.stepCtr
  | .sReg => behind s.status.winValid s.win.sReg
  | .key t => Memory.readWord s.mem (keyBase + 8 * t)
  | .nBuf t => (s.nBuf[t]?).bind fun e => if e.defined then some e.value else none
  | .cvOut t => if s.status.cvValid then wordOf s.cvOut t else none
  | .digest t => if s.status.digestValid then wordOf s.digest t else none
  | .w t => if s.status.winValid then wordOf s.win.w t else none
  | .msg t => Memory.readWord s.mem (msgBase + 8 * t)

/-- N_BUF[t] <- v, which makes it defined (10_state.md R32, 00_scope.md R17). -/
def writeNBuf (t : Nat) (v : Word) (s : State) : State :=
  { s with nBuf := tabulate fun j => if j.val = t then ⟨v, true⟩ else s.nBuf[j] }

/-- Writing a word of the map (20_memory.md R65, R66, R71, R73). A read-only word keeps its value: the access itself is
F_WRITE_RO (R63). -/
def writeElement (v : Word) (s : State) : Element → State
  | .cmd => issueCommand v s
  | .status => s
  | .cfgD => { s with cfgD := v }
  | .cfgKeylen => { s with cfgKeylen := v }
  | .cfgL => { s with cfgL := v }
  | .cfgR => { s with cfgR := v }
  | .cfgFlags => { s with rOverride := v.getLsbD 0 }
  | .msgLen => { s with msgLen := v }
  | .encLevel => { s with encLevel := v }
  | .encIndex => { s with encIndex := v }
  | .encZ => { s with encZ := v }
  | .encP => { s with encP := v }
  | .pbD => s
  | .pbKeylen => s
  | .pbL => s
  | .pbR => s
  | .stepCtr => s
  | .sReg => s
  | .key t => { s with mem := Memory.writeWord s.mem (keyBase + 8 * t) v }
  | .nBuf t => writeNBuf t v s
  | .cvOut _ => s
  | .digest _ => s
  | .w _ => s
  | .msg t => { s with mem := Memory.writeWord s.mem (msgBase + 8 * t) v }

end Sys2Proof.Machine
end

