-- ==== Sys2Proof/Machine/HostPort.lean ====
section
/-! DEFINITION. The host agent: its accesses with the model faults of 60_exceptions.md R279, the host program notation
(30_encoding.md R100, R101), and the reset event (70_reset_and_hazards.md R300). -/

namespace Sys2Proof.Machine

/-- An access that is not 8 bytes wide at a multiple of 8 (20_memory.md R61). -/
def accessMisaligned (off width : Nat) : Bool := decide (width ≠ 8) || decide (off % 8 ≠ 0)

/-- `if c then [f] else []`. -/
def faultIf (c : Bool) (f : ModelFault) : List ModelFault := if c then [f] else []

/-- The one access the host may make while BUSY = 1: `MemRead(0x008, 8)` (20_memory.md R64). -/
def isStatusRead (off width : Nat) : Bool := decide (off = 0x008) && decide (width = 8)

/-- The model faults of a read: every rule of R279 whose condition it meets (log entry 9). -/
def readFaults (off width : Nat) (s : State) : List ModelFault :=
  faultIf (accessMisaligned off width) .misaligned ++
  faultIf (elementAt off).isNone .unmapped ++
  faultIf (elementAt off == some .cmd) .readWo ++
  faultIf (s.status.busy && !isStatusRead off width) .busyAccess ++
  match elementAt off with
  | none => []
  | some e => faultIf (e.access != .wo && (readElement s e).isNone) .undefinedRead

/-- The model faults of a write: every rule of R279 whose condition it meets (log entry 9). -/
def writeFaults (off width : Nat) (s : State) : List ModelFault :=
  faultIf (accessMisaligned off width) .misaligned ++
  faultIf (elementAt off).isNone .unmapped ++
  faultIf ((elementAt off).any fun e => e.access == .ro) .writeRo ++
  faultIf s.status.busy .busyAccess

/-- The value a fault-free read returns. -/
def readValue (off : Nat) (s : State) : Option Word := (elementAt off).bind (readElement s)

/-- A read's result is noted for the host (log entry 12); the block does not see it. -/
def noteRead (v : Option Word) (s : State) : State := { s with host := { s.host with reads := s.host.reads ++ [v] } }

/-- `MemRead(off, width)` (20_memory.md R61 to R66, R70, R71): the value, or no value and the faults recorded. -/
def hostRead (off width : Nat) (s : State) : State :=
  match readFaults off width s with
  | [] => noteRead (readValue off s) s
  | fs => noteRead none (recordFaults fs s)

/-- `MemWrite(off, width, v)` (20_memory.md R61 to R66, R73): the write, or no effect and the faults recorded. -/
def hostWrite (off width : Nat) (v : Word) (s : State) : State :=
  match writeFaults off width s with
  | [] =>
    match elementAt off with
    | some e => writeElement v s e
    | none => s
  | fs => recordFaults fs s

/-- The same block with another rest of the schedule. -/
def State.withMoves (s : State) (moves : List HostMove) : State := { s with host := { s.host with moves := moves } }

/-- `require c` (30_encoding.md R101): a failing one ends the host program in failure. -/
def requireHost (c : Bool) (s : State) : State :=
  if c then s else { s with host := { s.host with moves := [], failed := true } }

/-- `EXPECT_OK` (30_encoding.md R101). -/
def expectOk (s : State) : State := requireHost (s.status.word.getLsbD 2 == false) s

/-- `EXPECT_ERR code` (30_encoding.md R101). -/
def expectErr (code : Byte) (s : State) : State :=
  requireHost (s.status.word.getLsbD 2 && s.status.word.extractLsb' 8 8 == code) s

/-- One turn of `WAIT` (30_encoding.md R101): STATUS is read, and while BUSY = 1 the core gets its turn and the loop goes
on (log entry 1). -/
def waitTurn (s : State) : State :=
  if s.status.word.getLsbD 0 then s.withMoves (.coreTurn :: .wait :: s.host.moves) else s

/-- The reset event (70_reset_and_hazards.md R300). -/
def resetEvent (s : State) : State := resetBlock s

/-- `ISSUE` (30_encoding.md R100): the command word written to CMD. -/
def issueMove (i : Instr) : HostMove := .write 0x000 8 (encode i)

/-- `DO` (30_encoding.md R101): ISSUE, then WAIT. -/
def doMoves (i : Instr) : List HostMove := [issueMove i, .wait]

end Sys2Proof.Machine
end

