-- ==== Sys2Proof/Machine/Turn.lean ====
section
/-! DEFINITION. Whose turn it is, and the core's fetch (20_memory.md R74, 30_encoding.md R93). -/

namespace Sys2Proof.Machine

/-- What the next step of the machine is. -/
inductive Turn where
  /-- The core executes PENDING in this state. -/
  | core (s : State)
  /-- The step is over with this outcome. -/
  | over (o : Host.Outcome State Fault Refusal)

/-- The core has its step: STATUS.BUSY = 1 and FAULT is empty (20_memory.md R74). -/
def coreEnabled (s : State) : Bool := s.status.busy && s.faultFree

/-- A host access or pseudo-instruction, made in a state from which it is already taken off. -/
def makeMove (s : State) : HostMove → Turn
  | .write off width v => .over (.next (hostWrite off width v s))
  | .read off width => .over (.next (hostRead off width s))
  | .wait => .over (.next (waitTurn s))
  | .expectOk => .over (.next (expectOk s))
  | .expectErr code => .over (.next (expectErr code s))
  | .coreTurn => if coreEnabled s then .core s else .over (.next s)
  | .reset => if s.status.busy then .over (.refused .resetWhileBusy) else .over (.next (resetEvent s))

/-- With no move left: the core's step if it has one, nothing while the block is idle (60_exceptions.md R286), and a
stop when FAULT is non-empty (log entry 10). -/
def restTurn (s : State) : Turn :=
  if !s.faultFree then .over (.fault .noEnabledStep)
  else if s.status.busy then .core s
  else .over (.next s)

/-- Whose turn it is: the first move of the schedule, or the core's (log entry 1). -/
def nextTurn (s : State) : Turn :=
  match s.host.moves with
  | [] => restTurn s
  | m :: rest => makeMove (s.withMoves rest) m

/-- The command in PENDING, `none` when the word is illegal (30_encoding.md R93). -/
def fetch (s : State) : Option Instr := (decode s.pending.value).toOption

/-- An illegal word's execution: ILLEGAL_CMD, nothing else read or written (30_encoding.md R98, 60_exceptions.md R272). -/
def illegalCommand (s : State) : Host.Outcome State Fault Refusal := raiseError .illegalCmd s

/-- A state whose next step is the core's, executing the word `v`: what a CMD write and a turn of the core need, no more
(log entry 2). -/
def placeCommand (v : Word) (s : State) : State :=
  { s with
    pending := ⟨v, true⟩
    status := { s.status with busy := true }
    fault := []
    host := { s.host with moves := .coreTurn :: s.host.moves } }

end Sys2Proof.Machine
end

