-- ==== Sys2Proof/Machine/Step.lean ====
section
/-! DEFINITION. One step of the machine: the core's step or one move outside it (20_memory.md R72, R74). -/

namespace Sys2Proof.Machine

/-- One step. On the core's turn the word in PENDING is decoded and its command executed (30_encoding.md R93). -/
def step (s : State) : Host.Outcome State Fault Refusal :=
  match nextTurn s with
  | .over o => o
  | .core t =>
    match fetch t with
    | some i => exec i t
    | none => illegalCommand t

/-- `s` with the word `w` where the core fetches its next command, and the core's turn next (log entry 2). -/
def State.withFetchWord (s : State) (nbits w : Nat) : State := placeCommand (BitVec.ofNat 64 (w % 2 ^ nbits)) s

end Sys2Proof.Machine
end

