-- ==== Sys2Proof/Safety.lean ====
section
/-! DEFINITION. What counts as the end of a run (70_reset_and_hazards.md R312), and the invariants of the state that the
statements use. -/

namespace Sys2Proof.Machine

/-- A final state (R312): the host program has made its last access with no failed `require`, BUSY = 0, and FAULT is
empty. -/
def Final (s : State) : Prop :=
  s.host.moves = [] ∧ s.host.failed = false ∧ s.status.busy = false ∧ s.fault = []

/-- The handshake, the error code, the command latch, the parameter block and FAULT are legal (10_state.md R29 to R31,
R40, 42_parameter_encoder.md R170, 60_exceptions.md R271, R288). -/
structure ControlInv (s : State) : Prop where
  /-- While a command is pending, DONE and ERR are 0 (20_memory.md R73). -/
  busyClearsDoneAndErr : s.status.busy = true → s.status.done = false ∧ s.status.err = false
  /-- ERR = 1 only after a completion (60_exceptions.md R273). -/
  errMeansDone : s.status.err = true → s.status.done = true
  /-- ERRCODE is NONE exactly when ERR = 0 (60_exceptions.md R271, R273, R274). -/
  errcodeNamesTheError : s.status.err = true ↔ s.status.errcode ≠ .noError
  /-- TREE_HEIGHT is never raised (60_exceptions.md R288). -/
  noTreeHeight : s.status.errcode ≠ .treeHeight
  /-- A pending command was written (10_state.md R30). -/
  busyMeansPending : s.status.busy = true → s.pending.defined = true
  /-- A valid parameter block is in the ranges of 10_state.md R31. -/
  pbInRange : s.status.pbValid = true →
    1 ≤ s.pb.d.toNat ∧ s.pb.d.toNat ≤ 512 ∧ s.pb.keylen.toNat ≤ 64 ∧ s.pb.l.toNat ≤ 64 ∧ s.pb.r.toNat ≤ 255
  /-- FAULT is a set (10_state.md R40). -/
  faultIsASet : s.fault.Nodup

/-- An offset of a byte of the KEY or the MSG region (20_memory.md R67). -/
def InByteRegion (off : Nat) : Prop :=
  (0x100 ≤ off ∧ off < 0x140) ∨ (0x10000 ≤ off ∧ off < 0x10000 + Config.msgCapBytes)

/-- The memory is in its canonical form and lists bytes of the KEY and MSG regions only. -/
structure MemoryInv (s : State) : Prop where
  canonical : Memory.wf s.mem = true
  inRegions : ∀ c ∈ s.mem, InByteRegion c.1

/-- The accumulator is within its capacity (44_cv_accumulator.md R240, R248). -/
structure AccumulatorInv (s : State) : Prop where
  lvlInFits : s.acc.lvlIn.length ≤ Config.accCap
  lvlOutFits : s.acc.lvlOut.length ≤ Config.accCap
  levelFits : s.acc.curLevel ≤ 65

/-- A window that holds the working array of some input after k steps: W[j] = A[k + j], STEP_CTR counts k modulo 2^64,
and S_REG = S_(k div 16) (10_state.md R33 to R35, 40_round_function.md R126, R132). With k = 2^64·w + STEP_CTR the last is
S_(2^60·w + STEP_CTR div 16). -/
def HoldsArray (x : Window) (n : Words89) (k : Nat) : Prop :=
  (∀ j (h : j < 89), x.w[j] = (workingArray n k).getD (k + j) 0) ∧
    x.stepCtr = BitVec.ofNat 64 k ∧ x.sReg = roundConst (k / 16)

/-- While WIN_VALID = 1 the window is the working array of some input after some number of steps (10_state.md R34,
40_round_function.md R132). -/
def WindowInv (s : State) : Prop := s.status.winValid = true → ∃ n k, HoldsArray s.win n k

end Sys2Proof.Machine
end

