-- ==== Sys2Proof/Certificates/Slice0/Obligations.lean ====
section
/-! DEFINITION. The statements for the provers, from the numbered rules of spec/. -/

open Sys2Proof Sys2Proof.Machine

/-- `t` is `s` after the error completion with `code`: STATUS alone changed (60_exceptions.md R273). -/
def EndsInError (s t : State) (code : ErrCode) : Prop :=
  t = { s with status := { s.status with busy := false, done := true, err := true, errcode := code } }

/-- `t` is `s` with the model fault `f` recorded: FAULT alone changed (60_exceptions.md R280). -/
def RecordsOnly (s t : State) (f : ModelFault) : Prop :=
  (∀ g, g ∈ t.fault ↔ g ∈ s.fault ∨ g = f) ∧ t = { s with fault := t.fault }

/-- The block, the host agent apart, is the same but for FAULT. -/
def SameApartFromFault (s t : State) : Prop := t = { s with fault := t.fault, host := t.host }

/-- STATUS after a success completion that leaves the valid bits alone (60_exceptions.md R274). -/
def Success (st : Status) : Status := { st with busy := false, done := true, err := false, errcode := .noError }

/-- The configuration registers, KEY, MSG and N_BUF are as R300 gives them after reset, and PENDING is undefined. -/
def ConfigurationIsReset (t : State) : Prop :=
  t.cfgD = 0 ∧ t.cfgKeylen = 0 ∧ t.cfgL = 64 ∧ t.cfgR = 0 ∧ t.rOverride = false ∧ t.msgLen = 0 ∧
  t.encLevel = 0 ∧ t.encIndex = 0 ∧ t.encZ = 0 ∧ t.encP = 0 ∧
  (∀ a, Memory.read t.mem a = none) ∧ t.pending.defined = false ∧ (∀ j (h : j < 89), t.nBuf[j].defined = false)

/-- The four valid bits, which are the definedness bits of PB_*, DIGEST, CV_OUT and the window, are 0. -/
def ResultsAreInvalid (t : State) : Prop :=
  t.status.pbValid = false ∧ t.status.digestValid = false ∧ t.status.cvValid = false ∧ t.status.winValid = false

/-- The next step is the core's, with BUSY = 1 and FAULT empty, and PENDING decodes to `i` (20_memory.md R74): the schedule
is empty or gives the core its turn (log entry 1). -/
def CoreRuns (s : State) (i : Instr) : Prop :=
  s.status.busy = true ∧ s.fault = [] ∧ (s.host.moves = [] ∨ s.host.moves.head? = some .coreTurn) ∧
    decode s.pending.value = .ok i

/-- The word at `off` has the value `v`, and with BUSY = 0 an 8-byte host read of it gives `v`, records no fault and
changes nothing (20_memory.md R65, R71). -/
def ReadsAs (s : State) (off : Nat) (v : Word) : Prop :=
  readValue off s = some v ∧
    (s.status.busy = false → hostRead off 8 s = { s with host := { s.host with reads := s.host.reads ++ [some v] } })

/-- The constant Q, word by word (42_parameter_encoder.md R174). -/
def publishedQ : List Word :=
  [ 0x7311c2812425cfa0, 0x6432286434aac8e7, 0xb60450e9ef68b7c1, 0xe8fb23908d9f06f1, 0xdd2e76cba691e5bf,
    0x0cd0d63b2c30bc41, 0x1f8ccf6823058f8a, 0x54e5ed5b88e3775d, 0x4ad12aae0a6d6031, 0x3e7f16bb88222e0d,
    0x8af8671d3fb50c2c, 0x995ad1178bd25c31, 0xc878c1dd04c4b633, 0x3b72066c7a1552ac, 0x0d6f3522631effcb ]

/-! ## Encodings -/

/-- Command words of 30_encoding.md R92 and 95_test_vectors.md sections 7 and 9, and what they stand for. -/
def Obligations.DecodesTheSpecsCommandWords : Prop :=
  decode 0x0000000000000000 = .ok .nop ∧ decode 0x0000000000000001 = .ok .softReset ∧
  decode 0x0000000000000002 = .ok .configure ∧ decode 0x0000000000000003 = .ok .encodeNode ∧
  decode 0x0000000000000004 = .ok .compress ∧ decode 0x0000000000000005 = .ok .hash ∧
  decode 0x0000000000000006 = .ok .loadN ∧ decode 0x0000000000010007 = .ok (.step 1) ∧
  decode 0x00000000000f0007 = .ok (.step 15) ∧ decode 0x0000000000670008 = .ok (.round 103) ∧
  decode 0x0000000000000009 = .ok .readCv ∧ decode 0x00000000000000ff = .error .unassignedOp ∧
  decode 0x0000000000010000 = .error .countNonzero ∧ decode 0x0000000000000107 = .error .reservedNonzero

/-- Decoding the word of a command gives the command back, for every command and every COUNT (R90 to R93). -/
def Obligations.DecodeOfEncodeIsTheCommand : Prop :=
  ∀ i : Instr, i.wellFormed = true → decode (encode i) = .ok i

/-- A word that decodes is the word of the command it decodes to: no bit of it is ignored (R90 to R93, R99). -/
def Obligations.EncodeOfDecodeIsTheWord : Prop :=
  ∀ (w : Word) (i : Instr), decode w = .ok i → i.wellFormed = true ∧ encode i = w

/-- The illegal words are exactly those of the three cases of R98. -/
def Obligations.DecodeRefusesExactlyTheIllegalWords : Prop :=
  ∀ w : Word, (∃ e, decode w = .error e) ↔
    0x0A ≤ (w.extractLsb' 0 8).toNat ∨ w.extractLsb' 8 8 ≠ 0 ∨ w.extractLsb' 32 32 ≠ 0 ∨
      (w.extractLsb' 16 16 ≠ 0 ∧ w.extractLsb' 0 8 ≠ 0x07 ∧ w.extractLsb' 0 8 ≠ 0x08)

/-- At most one row of R92 selects a word (R93). -/
def Obligations.AtMostOneRowSelectsAWord : Prop :=
  ∀ w : Word, (cmdTable.filter fun r => r.selects w).length ≤ 1

/-! ## The core's step and the completions -/

/-- On the core's turn, with BUSY = 1 and FAULT empty, a step is the execution of the command PENDING decodes to
(20_memory.md R74); the schedule loses the turn, if it gave one (log entry 1). -/
def Obligations.StepExecutesTheDecodedCommand : Prop :=
  ∀ (s : State) (i : Instr), s.status.busy = true → s.fault = [] → decode s.pending.value = .ok i →
    (s.host.moves = [] → step s = exec i s) ∧
    (∀ rest, s.host.moves = .coreTurn :: rest →
      step s = exec i { s with host := { s.host with moves := rest } })

/-- On the core's turn, with BUSY = 1 and FAULT empty, an illegal word ends in ILLEGAL_CMD and changes STATUS alone (R93,
R98, 60_exceptions.md R272); the schedule loses the turn, if it gave one (log entry 1). -/
def Obligations.StepOfAnIllegalWordRaisesIllegalCmd : Prop :=
  ∀ s : State, s.status.busy = true → s.fault = [] →
    (0x0A ≤ (s.pending.value.extractLsb' 0 8).toNat ∨ s.pending.value.extractLsb' 8 8 ≠ 0 ∨
      s.pending.value.extractLsb' 32 32 ≠ 0 ∨
      (s.pending.value.extractLsb' 16 16 ≠ 0 ∧ s.pending.value.extractLsb' 0 8 ≠ 0x07 ∧
        s.pending.value.extractLsb' 0 8 ≠ 0x08)) →
    (s.host.moves = [] → ∃ t, step s = .next t ∧ EndsInError s t .illegalCmd) ∧
    (∀ rest, s.host.moves = .coreTurn :: rest → ∃ t, step s = .next t ∧
      EndsInError { s with host := { s.host with moves := rest } } t .illegalCmd)

/-- A turn given to the core while BUSY = 0 or FAULT is non-empty changes nothing, and the schedule goes on. That the core
has no step then is 20_memory.md R74; that its turn passes without effect is the model's choice (log entry 10). -/
def Obligations.CoreHasNoStepWhenIdleOrFaulted : Prop :=
  ∀ (s : State) (rest : List HostMove), s.host.moves = .coreTurn :: rest → s.status.busy = false ∨ s.fault ≠ [] →
    step s = .next { s with host := { s.host with moves := rest } }

/-- Every command, in every state, ends in one of the three completions of 20_memory.md R74: success (STATUS as
60_exceptions.md R274 says), error (STATUS alone changed, R273), or the model fault F_UNDEFINED_INPUT (FAULT alone
changed, R280). No command is refused (R270). -/
def Obligations.EveryCommandEndsInOneOfThreeCompletions : Prop :=
  ∀ (i : Instr) (s : State), ∃ t, exec i s = .next t ∧
    ((t.status.busy = false ∧ t.status.done = true ∧ t.status.err = false ∧ t.status.errcode = .noError ∧
        t.fault = s.fault) ∨
      (∃ code, code ≠ .noError ∧ EndsInError s t code) ∨
      RecordsOnly s t .undefinedInput)

/-- What a command other than SOFT_RESET leaves unchanged, whatever its completion (20_memory.md R77, 10_state.md R41):
the configuration registers, every byte of KEY and MSG, PENDING and the host agent always; each other register and valid
bit unless the command is one that R77 lists as writing it. -/
def Obligations.CommandsLeaveOtherStateUnchanged : Prop :=
  ∀ (i : Instr) (s t : State), i ≠ .softReset → exec i s = .next t →
    (t.cfgD = s.cfgD ∧ t.cfgKeylen = s.cfgKeylen ∧ t.cfgL = s.cfgL ∧ t.cfgR = s.cfgR ∧ t.rOverride = s.rOverride ∧
      t.msgLen = s.msgLen ∧ t.encLevel = s.encLevel ∧ t.encIndex = s.encIndex ∧ t.encZ = s.encZ ∧ t.encP = s.encP ∧
      t.pending = s.pending ∧ t.host = s.host) ∧
    (∀ a, Memory.read t.mem a = Memory.read s.mem a) ∧
    (i ≠ .configure → t.pb = s.pb ∧ t.status.pbValid = s.status.pbValid) ∧
    (∀ j (h : j < 89), i ≠ .encodeNode ∨ 25 ≤ j → t.nBuf[j] = s.nBuf[j]) ∧
    (i ≠ .compress → i ≠ .hash → i ≠ .loadN → t.status.winValid = s.status.winValid ∧
      ((∀ n, i ≠ .step n) → (∀ n, i ≠ .round n) → t.win = s.win)) ∧
    (i ≠ .compress → i ≠ .hash → i ≠ .readCv → t.cvOut = s.cvOut ∧ t.status.cvValid = s.status.cvValid) ∧
    (i ≠ .hash → t.digest = s.digest ∧ t.status.digestValid = s.status.digestValid ∧ t.acc = s.acc)

/-! ## The host port and the register map -/

/-- A host access at the head of the schedule is made by the next step (20_memory.md R72). -/
def Obligations.StepMakesTheHostsNextAccess : Prop :=
  ∀ (s : State) (off width : Nat) (v : Word) (rest : List HostMove),
    (s.host.moves = .write off width v :: rest →
      step s = .next (hostWrite off width v { s with host := { s.host with moves := rest } })) ∧
    (s.host.moves = .read off width :: rest →
      step s = .next (hostRead off width { s with host := { s.host with moves := rest } }))

/-- The offsets that no row of 30_encoding.md R94 maps. -/
def Unmapped (off : Nat) : Prop :=
  (0x090 ≤ off ∧ off < 0x100) ∨ (0x140 ≤ off ∧ off < 0x200) ∨ (0x4C8 ≤ off ∧ off < 0x500) ∨
  (0x5C0 ≤ off ∧ off < 0x600) ∨ (0x8C8 ≤ off ∧ off < 0x10000) ∨ 0x10000 + Config.msgCapBytes ≤ off

/-- The offsets of the read-only registers and regions of 30_encoding.md R94. -/
def ReadOnly (off : Nat) : Prop :=
  (0x008 ≤ off ∧ off < 0x010) ∨ (0x060 ≤ off ∧ off < 0x090) ∨ (0x500 ≤ off ∧ off < 0x5C0) ∨
  (0x600 ≤ off ∧ off < 0x8C8)

/-- The offsets of the words the host may read and write, CMD not among them (30_encoding.md R94). -/
def ReadWrite (off : Nat) : Prop :=
  (0x010 ≤ off ∧ off < 0x060) ∨ (0x100 ≤ off ∧ off < 0x140) ∨ (0x200 ≤ off ∧ off < 0x4C8) ∨
  (0x10000 ≤ off ∧ off < 0x10000 + Config.msgCapBytes)

/-- A misaligned or narrow access is F_MISALIGNED, an access to an unmapped offset F_UNMAPPED, and neither has an effect
on the block nor gives a value (20_memory.md R61, R62). -/
def Obligations.MisalignedOrUnmappedAccessHasNoEffect : Prop :=
  ∀ (s : State) (off width : Nat) (v : Word), (width ≠ 8 ∨ off % 8 ≠ 0 ∨ Unmapped off) →
    hostWrite off width v s = { s with fault := (hostWrite off width v s).fault } ∧
    SameApartFromFault s (hostRead off width s) ∧
    (hostRead off width s).host = { s.host with reads := s.host.reads ++ [none] } ∧
    ((width ≠ 8 ∨ off % 8 ≠ 0) →
      .misaligned ∈ (hostWrite off width v s).fault ∧ .misaligned ∈ (hostRead off width s).fault) ∧
    (Unmapped off → .unmapped ∈ (hostWrite off width v s).fault ∧ .unmapped ∈ (hostRead off width s).fault)

/-- A write to a read-only register or region is F_WRITE_RO and has no effect; a read of CMD is F_READ_WO and returns
nothing (20_memory.md R63). That an offset inside a mapped word belongs to that word, and that an access which is
misaligned too records this fault as well, is the model's choice (log entry 9). -/
def Obligations.ReadOnlyWritesAndCmdReadsHaveNoEffect : Prop :=
  (∀ (s : State) (off width : Nat) (v : Word), ReadOnly off →
    hostWrite off width v s = { s with fault := (hostWrite off width v s).fault } ∧
    .writeRo ∈ (hostWrite off width v s).fault) ∧
  (∀ (s : State) (width : Nat),
    SameApartFromFault s (hostRead 0x000 width s) ∧
    (hostRead 0x000 width s).host = { s.host with reads := s.host.reads ++ [none] } ∧
    .readWo ∈ (hostRead 0x000 width s).fault)

/-- While BUSY = 1 every access but a read of STATUS is F_BUSY_ACCESS and has no effect, a write to CMD included, and the
read of STATUS gives STATUS (20_memory.md R64). That a read of STATUS which is not 8 bytes wide is F_BUSY_ACCESS, and that
an access which meets another fault's condition too records this fault as well, is the model's choice (log entry 9). -/
def Obligations.BusyBlockAllowsOnlyAStatusRead : Prop :=
  ∀ s : State, s.status.busy = true →
    (∀ off width v, hostWrite off width v s = { s with fault := (hostWrite off width v s).fault } ∧
      .busyAccess ∈ (hostWrite off width v s).fault) ∧
    (∀ off width, ¬(off = 0x008 ∧ width = 8) → SameApartFromFault s (hostRead off width s) ∧
      (hostRead off width s).host = { s.host with reads := s.host.reads ++ [none] } ∧
      .busyAccess ∈ (hostRead off width s).fault) ∧
    hostRead 0x008 8 s = { s with host := { s.host with reads := s.host.reads ++ [some s.status.word] } }

/-- A write to CMD with BUSY = 0 latches the word, sets BUSY, clears DONE, ERR and ERRCODE, and does nothing else; with
BUSY = 1 it is F_BUSY_ACCESS (20_memory.md R73). -/
def Obligations.CmdWriteLatchesTheCommand : Prop :=
  ∀ (s : State) (v : Word),
    (s.status.busy = false → hostWrite 0x000 8 v s =
      { s with
        pending := ⟨v, true⟩
        status := { s.status with busy := true, done := false, err := false, errcode := .noError } }) ∧
    (s.status.busy = true → RecordsOnly s (hostWrite 0x000 8 v s) .busyAccess)

/-- With BUSY = 0 each configuration register stands at its offset of R94 and stores all 64 bits as written
(10_state.md R21 to R24, R26, R27). -/
def Obligations.ConfigurationRegistersStoreTheWholeWord : Prop :=
  ∀ (s : State) (v : Word), s.status.busy = false →
    hostWrite 0x010 8 v s = { s with cfgD := v } ∧ hostWrite 0x018 8 v s = { s with cfgKeylen := v } ∧
    hostWrite 0x020 8 v s = { s with cfgL := v } ∧ hostWrite 0x028 8 v s = { s with cfgR := v } ∧
    hostWrite 0x038 8 v s = { s with msgLen := v } ∧ hostWrite 0x040 8 v s = { s with encLevel := v } ∧
    hostWrite 0x048 8 v s = { s with encIndex := v } ∧ hostWrite 0x050 8 v s = { s with encZ := v } ∧
    hostWrite 0x058 8 v s = { s with encP := v }

/-- CFG_FLAGS: bit 0 is stored, bits 63:1 read as 0 and ignore writes; the reset value is 0 (10_state.md R25). A host read
gives R_OVERRIDE zero-extended and records no fault (20_memory.md R65). -/
def Obligations.CfgFlagsKeepsItsReservedBitsZero : Prop :=
  State.reset.rOverride = false ∧
  ∀ (s : State) (v : Word), s.status.busy = false →
    hostWrite 0x030 8 v s = { s with rOverride := v.getLsbD 0 } ∧
    ReadsAs s 0x030 (if s.rOverride then 1 else 0) ∧
    ReadsAs (hostWrite 0x030 8 v s) 0x030 (if v.getLsbD 0 then 1 else 0)

/-- With BUSY = 0 a word written to a configuration register other than CFG_FLAGS, KEY, N_BUF or MSG is read back, and
neither access faults (20_memory.md R65, R66). -/
def Obligations.WrittenWordIsReadBack : Prop :=
  ∀ (s : State) (off : Nat) (v : Word), s.status.busy = false → ReadWrite off → off % 8 = 0 → off ≠ 0x030 →
    (hostRead off 8 (hostWrite off 8 v s)).host.reads = s.host.reads ++ [some v] ∧
    (hostRead off 8 (hostWrite off 8 v s)).fault = s.fault

/-- A write to one word other than CMD leaves what every other offset reads as, and every byte of KEY and MSG outside
the eight bytes of the word at the offset written to (20_memory.md R65, R66, R71). -/
def Obligations.WriteLeavesOtherWordsUnchanged : Prop :=
  ∀ (s : State) (off : Nat) (v : Word), s.status.busy = false → ReadWrite off → off % 8 = 0 →
    (∀ other, other % 8 = 0 → other ≠ off → readValue other (hostWrite off 8 v s) = readValue other s) ∧
    (∀ a, a < off ∨ off + 8 ≤ a → Memory.read (hostWrite off 8 v s).mem a = Memory.read s.mem a)

/-- A word written to KEY or MSG sets its eight bytes, the lowest-numbered one from the most significant bits
(20_memory.md R66, R67). -/
def Obligations.KeyAndMessageWordsAreBigEndian : Prop :=
  ∀ (s : State) (off a : Nat) (v : Word), s.status.busy = false → off % 8 = 0 → InByteRegion off → a < 8 →
    Memory.read (hostWrite off 8 v s).mem (off + a) = some (v.extractLsb' (56 - 8 * a) 8)

/-- A read changes nothing but FAULT and what the host has read, and a second read notes the same result
(20_memory.md R71). -/
def Obligations.ReadsHaveNoSideEffect : Prop :=
  ∀ (s : State) (off width : Nat), SameApartFromFault s (hostRead off width s) ∧
    ∃ r, (hostRead off width s).host = { s.host with reads := s.host.reads ++ [r] } ∧
      (hostRead off width (hostRead off width s)).host = { s.host with reads := s.host.reads ++ [r] ++ [r] }

/-- With BUSY = 0, a read of a word whose definedness bit is clear is F_UNDEFINED_READ and returns no value: PB_*, W,
S_REG, STEP_CTR, CV_OUT, DIGEST behind a valid bit that is 0, an undefined N_BUF word, a KEY or MSG word with an
undefined byte (20_memory.md R70, 10_state.md R31 to R38). -/
def Obligations.UndefinedWordsAreNotRead : Prop :=
  ∀ (s : State) (off : Nat), s.status.busy = false → off % 8 = 0 →
    ((0x060 ≤ off ∧ off < 0x080 ∧ s.status.pbValid = false) ∨
      (0x080 ≤ off ∧ off < 0x090 ∧ s.status.winValid = false) ∨
      (0x600 ≤ off ∧ off < 0x8C8 ∧ s.status.winValid = false) ∨
      (0x500 ≤ off ∧ off < 0x580 ∧ s.status.cvValid = false) ∨
      (0x580 ≤ off ∧ off < 0x5C0 ∧ s.status.digestValid = false) ∨
      (∃ j, ∃ h : j < 89, off = 0x200 + 8 * j ∧ s.nBuf[j].defined = false) ∨
      (InByteRegion off ∧ ∃ a, a < 8 ∧ Memory.read s.mem (off + a) = none)) →
    RecordsOnly { s with host := { s.host with reads := s.host.reads ++ [none] } } (hostRead off 8 s) .undefinedRead

/-- The layout of STATUS and the error codes (10_state.md R29, R45, 60_exceptions.md R271). -/
def Obligations.StatusWordHoldsItsFields : Prop :=
  (∀ st : Status,
    st.word.getLsbD 0 = st.busy ∧ st.word.getLsbD 1 = st.done ∧ st.word.getLsbD 2 = st.err ∧
    st.word.extractLsb' 8 8 = st.errcode.code ∧ st.word.getLsbD 16 = st.pbValid ∧
    st.word.getLsbD 17 = st.digestValid ∧ st.word.getLsbD 18 = st.cvValid ∧ st.word.getLsbD 19 = st.winValid ∧
    st.word.extractLsb' 3 5 = 0 ∧ st.word.extractLsb' 20 44 = 0) ∧
  ErrCode.noError.code = 0x00 ∧ ErrCode.cfgDigestLen.code = 0x01 ∧ ErrCode.cfgKeyLen.code = 0x02 ∧
  ErrCode.cfgMode.code = 0x03 ∧ ErrCode.cfgRounds.code = 0x04 ∧ ErrCode.treeHeight.code = 0x05 ∧
  ErrCode.illegalCmd.code = 0x06 ∧ ErrCode.notConfigured.code = 0x07 ∧ ErrCode.msgTooLong.code = 0x08 ∧
  ErrCode.argRange.code = 0x09 ∧ ErrCode.noWindow.code = 0x0A

/-- Where the arrays and the results stand on the register map, and what reading them gives when they are defined; with
BUSY = 0 a host read gives that value and records no fault (30_encoding.md R94, 10_state.md R31 to R37, 20_memory.md R65,
R70). -/
def Obligations.DefinedRegistersReadTheirValue : Prop :=
  ∀ s : State,
    ReadsAs s 0x008 s.status.word ∧
    (s.status.pbValid = true → ReadsAs s 0x060 s.pb.d ∧ ReadsAs s 0x068 s.pb.keylen ∧ ReadsAs s 0x070 s.pb.l ∧
      ReadsAs s 0x078 s.pb.r) ∧
    (s.status.winValid = true → ReadsAs s 0x080 s.win.stepCtr ∧ ReadsAs s 0x088 s.win.sReg ∧
      ∀ t (h : t < 89), ReadsAs s (0x600 + 8 * t) s.win.w[t]) ∧
    (s.status.cvValid = true → ∀ t (h : t < 16), ReadsAs s (0x500 + 8 * t) s.cvOut[t]) ∧
    (s.status.digestValid = true → ∀ t (h : t < 8), ReadsAs s (0x580 + 8 * t) s.digest[t]) ∧
    (∀ t (h : t < 89), s.nBuf[t].defined = true → ReadsAs s (0x200 + 8 * t) s.nBuf[t].value)

/-! ## Reset and the control commands -/

/-- The initial state: the reset table with FAULT empty (70_reset_and_hazards.md R300, R301); STATUS reads 0. -/
def Obligations.InitialStateIsTheResetTable : Prop :=
  ConfigurationIsReset State.reset ∧ ResultsAreInvalid State.reset ∧ State.reset.status.word = 0 ∧ State.reset.fault = []

/-- The reset event, with BUSY = 0, gives every element its value of the reset table and leaves FAULT unchanged
(70_reset_and_hazards.md R300). -/
def Obligations.ResetEventRestoresTheResetTable : Prop :=
  ∀ (s : State) (rest : List HostMove), s.host.moves = .reset :: rest → s.status.busy = false →
    ∃ t, step s = .next t ∧ ConfigurationIsReset t ∧ ResultsAreInvalid t ∧ t.status.word = 0 ∧ t.fault = s.fault

/-- SOFT_RESET, the command word 1, gives every element but STATUS and FAULT its reset value, leaves STATUS = 2 and does
not clear FAULT, in every state (45_control.md R261). -/
def Obligations.SoftResetRestoresTheResetTable : Prop :=
  decode 0x0000000000000001 = .ok .softReset ∧
  ∀ s : State, ∃ t, exec .softReset s = .next t ∧ ConfigurationIsReset t ∧ ResultsAreInvalid t ∧
    t.status.word = 0x0000000000000002 ∧ t.fault = s.fault ∧ t.host = s.host

/-- NOP, the command word 0, has no effect but its success completion, in every state, and after reset leaves STATUS = 2
(45_control.md R260). -/
def Obligations.NopOnlyCompletes : Prop :=
  decode 0x0000000000000000 = .ok .nop ∧
  (∀ s : State, exec .nop s = .next { s with status := Success s.status }) ∧
  ∀ t, exec .nop State.reset = .next t → t.status.word = 0x0000000000000002

/-! ## The round function -/

/-- STEPFN (40_round_function.md R124) with its tables (R121) written out and the rule's example, and the round constants
(R122, R123): S_0, the update rule, and the first values. -/
def Obligations.StepAndRoundConstantsAreThePublishedOnes : Prop :=
  (∀ (w : Words89) (s : Word) (k : Nat),
    let rs := [10, 5, 13, 10, 11, 12, 2, 7, 14, 15, 7, 13, 11, 7, 6, 12].getD (k % 16) 0
    let ls := [11, 24, 9, 16, 15, 9, 27, 15, 6, 2, 29, 8, 15, 5, 31, 9].getD (k % 16) 0
    let x := s ^^^ w[0] ^^^ w[72] ^^^ (w[71] &&& w[68]) ^^^ (w[58] &&& w[22])
    let y := x ^^^ (x >>> rs)
    (stepFn w s k)[88] = y ^^^ (y <<< ls) ∧ ∀ j (h : j < 88), (stepFn w s k)[j] = w[j + 1]) ∧
  (stepFn (Vector.replicate 89 0) 0x0123456789abcdef 0)[88] = 0x194ebb349d71471c ∧
  roundConst 0 = 0x0123456789abcdef ∧
  (∀ j, roundConst (j + 1) =
    ((roundConst j <<< 1) ^^^ (roundConst j >>> 63)) ^^^ (roundConst j &&& 0x7311c2812425cfa0)) ∧
  roundConst 1 = 0x0347cace1376567e ∧ roundConst 2 = 0x058e571c26c8eadc ∧ roundConst 3 = 0x0a1cec3869911f38

/-- One sequencer step, by STEP 1 on a loaded window (R126): the counter wraps modulo 2^64 and S_REG advances at each
16-step boundary, the wrap included. -/
def Obligations.StepOneIsTheSequencerStep : Prop :=
  ∀ s : State, s.status.winValid = true →
    exec (.step 1) s = .next
      { s with
        win :=
          { w := stepFn s.win.w s.win.sReg s.win.stepCtr.toNat
            stepCtr := BitVec.ofNat 64 ((s.win.stepCtr.toNat + 1) % 2 ^ 64)
            sReg := if (s.win.stepCtr.toNat + 1) % 16 = 0 then nextS s.win.sReg else s.win.sReg }
        status := Success s.status }

/-- LOAD_N (R128), OP 0x06: with every N_BUF word defined, W <- N_BUF, S_REG <- S0, STEP_CTR <- 0, WIN_VALID <- 1 and success,
whether or not there is a parameter block; with an undefined word, F_UNDEFINED_INPUT before any write. -/
def Obligations.LoadNLoadsTheWindow : Prop :=
  decode 0x0000000000000006 = .ok .loadN ∧
  ∀ s : State,
    ((∀ j (h : j < 89), s.nBuf[j].defined = true) → ∃ t, exec .loadN s = .next t ∧
      (∀ j (h : j < 89), t.win.w[j] = s.nBuf[j].value) ∧ t.win.sReg = 0x0123456789abcdef ∧ t.win.stepCtr = 0 ∧
      t = { s with win := t.win, status := { Success s.status with winValid := true } }) ∧
    ((∃ j, ∃ h : j < 89, s.nBuf[j].defined = false) → ∃ t, exec .loadN s = .next t ∧
      RecordsOnly s t .undefinedInput)

/-- STEP n (R129), OP 0x07 with COUNT = n: NO_WINDOW without a window, else n sequencer steps, and nothing else but STATUS;
STEP 16 has the effect of ROUND 1. -/
def Obligations.StepPerformsNSequencerSteps : Prop :=
  ∀ (n : Nat) (s : State),
    (n < 65536 → decode (0#32 ++ BitVec.ofNat 16 n ++ 0#8 ++ 0x07#8) = .ok (.step n)) ∧
    exec (.step 16) s = exec (.round 1) s ∧
    (s.status.winValid = false → ∃ t, exec (.step n) s = .next t ∧ EndsInError s t .noWindow) ∧
    (s.status.winValid = true →
      exec (.step n) s = .next { s with win := step1^[n] s.win, status := Success s.status })

/-- ROUND n (R130), OP 0x08 with COUNT = n: NO_WINDOW without a window, else 16·n sequencer steps and nothing else but
STATUS, with STEP_CTR mod 16 as before. -/
def Obligations.RoundPerformsSixteenTimesNSteps : Prop :=
  ∀ (n : Nat) (s : State),
    (n < 65536 → decode (0#32 ++ BitVec.ofNat 16 n ++ 0#8 ++ 0x08#8) = .ok (.round n)) ∧
    (s.status.winValid = false → ∃ t, exec (.round n) s = .next t ∧ EndsInError s t .noWindow) ∧
    (s.status.winValid = true → ∃ t, exec (.round n) s = .next t ∧
      t = { s with win := step1^[16 * n] s.win, status := Success s.status } ∧
      t.win.stepCtr.toNat % 16 = s.win.stepCtr.toNat % 16)

/-- READ_CV (R131), OP 0x09: NO_WINDOW without a window, else CV_OUT <- W[73..88], CV_VALID <- 1, and nothing else but STATUS. -/
def Obligations.ReadCvCopiesTheLastSixteenWords : Prop :=
  decode 0x0000000000000009 = .ok .readCv ∧
  ∀ s : State,
    (s.status.winValid = false → ∃ t, exec .readCv s = .next t ∧ EndsInError s t .noWindow) ∧
    (s.status.winValid = true → ∃ t, exec .readCv s = .next t ∧
      (∀ j (h : j < 16), t.cvOut[j] = s.win.w[73 + j]) ∧
      t = { s with cvOut := t.cvOut, status := { Success s.status with cvValid := true } })

/-- After LOAD_N and STEP k, k < 2^64, the window holds A[k .. k+88] of the array form of the recurrence, STEP_CTR = k and
S_REG = S_(k div 16) (40_round_function.md sections 2 and 3, where this is said of k sequencer steps). For k of 65536 and
more STEP k is no command word, and that it repeats the step k times is the model's choice (log entry 13). -/
def Obligations.WindowHoldsTheWorkingArray : Prop :=
  ∀ (s : State) (n : Words89) (k : Nat), (∀ j (h : j < 89), s.nBuf[j] = ⟨n[j], true⟩) → k < 2 ^ 64 →
    ∃ t u, exec .loadN s = .next t ∧ exec (.step k) t = .next u ∧
      (∀ j (h : j < 89), u.win.w[j] = (workingArray n k).getD (k + j) 0) ∧
      u.win.stepCtr.toNat = k ∧ u.win.sReg = roundConst (k / 16)

/-! ## The compression function -/

/-- The compression function, defined by the window loop of 41_compression.md R150, gives the last 16 words of the
working array of 40_round_function.md R125 after 16·r steps; for r = 0 they are N[73..88] (R151). -/
def Obligations.CompressionIsTheArrayFormsLastWords : Prop :=
  ∀ (n : Words89) (j : Nat) (h : j < 16),
    (∀ r : Nat, (compressF r n)[j] = (workingArray n (16 * r)).getD (89 + 16 * r - 16 + j) 0) ∧
    (compressF 0 n)[j] = n[73 + j]

/-- COMPRESS (41_compression.md R153), OP 0x04: NOT_CONFIGURED without a parameter block, then F_UNDEFINED_INPUT with an undefined
N_BUF word, before any write; else CV_OUT = f_PB_R(N_BUF), the window as after LOAD_N and ROUND PB_R, WIN_VALID and
CV_VALID set, and nothing else but STATUS. -/
def Obligations.CompressComputesTheCompressionFunction : Prop :=
  decode 0x0000000000000004 = .ok .compress ∧
  ∀ s : State,
    (s.status.pbValid = false → ∃ t, exec .compress s = .next t ∧ EndsInError s t .notConfigured) ∧
    (s.status.pbValid = true → (∃ j, ∃ h : j < 89, s.nBuf[j].defined = false) →
      ∃ t, exec .compress s = .next t ∧ RecordsOnly s t .undefinedInput) ∧
    (∀ n : Words89, s.status.pbValid = true → (∀ j (h : j < 89), s.nBuf[j] = ⟨n[j], true⟩) →
      ∃ t u v, exec .compress s = .next t ∧ exec .loadN s = .next u ∧ exec (.round s.pb.r.toNat) u = .next v ∧
        t = { s with
          win := v.win
          cvOut := compressF s.pb.r.toNat n
          status := { Success s.status with winValid := true, cvValid := true } })

/-! ## The parameter encoder -/

/-- The default round count (42_parameter_encoder.md R171) and its ranges. -/
def Obligations.DefaultRoundCountIsThePublishedOne : Prop :=
  (∀ d, defaultRounds d 0 = 40 + d / 4) ∧
  (∀ d keylen, 0 < keylen → defaultRounds d keylen = max 80 (40 + d / 4)) ∧
  (∀ d, 1 ≤ d → d ≤ 512 → 40 ≤ defaultRounds d 0 ∧ defaultRounds d 0 ≤ 168) ∧
  (∀ d keylen, 1 ≤ d → d ≤ 512 → 0 < keylen → 80 ≤ defaultRounds d keylen ∧ defaultRounds d keylen ≤ 168)

/-- CONFIGURE's checks, in order, the first that fails giving the error (42_parameter_encoder.md R170). -/
def Obligations.ConfigureReportsTheFirstFailingCheck : Prop :=
  ∀ s : State,
    let badD := s.cfgD.toNat = 0 ∨ 512 < s.cfgD.toNat
    let badKey := 64 < s.cfgKeylen.toNat
    let badL := 64 < s.cfgL.toNat
    let badR := s.rOverride = true ∧ 255 < s.cfgR.toNat
    (badD → ∃ t, exec .configure s = .next t ∧ EndsInError s t .cfgDigestLen) ∧
    (¬badD → badKey → ∃ t, exec .configure s = .next t ∧ EndsInError s t .cfgKeyLen) ∧
    (¬badD → ¬badKey → badL → ∃ t, exec .configure s = .next t ∧ EndsInError s t .cfgMode) ∧
    (¬badD → ¬badKey → ¬badL → badR → ∃ t, exec .configure s = .next t ∧ EndsInError s t .cfgRounds)

/-- A legal configuration (42_parameter_encoder.md R170). -/
def LegalConfiguration (s : State) : Prop :=
  1 ≤ s.cfgD.toNat ∧ s.cfgD.toNat ≤ 512 ∧ s.cfgKeylen.toNat ≤ 64 ∧ s.cfgL.toNat ≤ 64 ∧
    (s.rOverride = true → s.cfgR.toNat ≤ 255)

/-- CONFIGURE on a legal configuration (42_parameter_encoder.md R172, R173): with an undefined key byte below keylen it
is F_UNDEFINED_INPUT; else it latches d, keylen, L, the rounds in force and the zero-padded big-endian key words, sets
PB_VALID, and changes nothing else but STATUS. -/
def Obligations.ConfigureLatchesTheParameterBlock : Prop :=
  ∀ s : State, LegalConfiguration s →
    ((∃ a, a < s.cfgKeylen.toNat ∧ Memory.read s.mem (0x100 + a) = none) →
      ∃ t, exec .configure s = .next t ∧ RecordsOnly s t .undefinedInput) ∧
    (∀ kb : Nat → Byte, (∀ a, a < s.cfgKeylen.toNat → Memory.read s.mem (0x100 + a) = some (kb a)) →
      ∃ t, exec .configure s = .next t ∧
        t.pb.d = s.cfgD ∧ t.pb.keylen = s.cfgKeylen ∧ t.pb.l = s.cfgL ∧
        t.pb.r.toNat =
          (if s.rOverride then s.cfgR.toNat
           else if s.cfgKeylen.toNat = 0 then 40 + s.cfgD.toNat / 4 else max 80 (40 + s.cfgD.toNat / 4)) ∧
        (∀ j (h : j < 8) (i : Nat), i < 8 → t.pb.k[j].extractLsb' (8 * (7 - i)) 8 =
          if 8 * j + i < s.cfgKeylen.toNat then kb (8 * j + i) else 0) ∧
        t = { s with pb := t.pb, status := { Success s.status with pbValid := true } })

/-- The layout of V (30_encoding.md R96): each field holds its argument, for every argument that fits its field, and the
reserved bits are 0; with the rule's formula and example. -/
def Obligations.ControlWordHoldsItsFields : Prop :=
  (∀ r l z p keylen d : Word, controlWord r l z p keylen d =
    (r <<< 48) ^^^ (l <<< 40) ^^^ (z <<< 36) ^^^ (p <<< 20) ^^^ (keylen <<< 12) ^^^ d) ∧
  (∀ (r d : BitVec 12) (l keylen : BitVec 8) (z : BitVec 4) (p : BitVec 16),
    controlWord (r.setWidth 64) (l.setWidth 64) (z.setWidth 64) (p.setWidth 64) (keylen.setWidth 64) (d.setWidth 64) =
      0#4 ++ r ++ l ++ z ++ p ++ keylen ++ d) ∧
  controlWord 104 64 1 4096 0 256 = 0x0068401100000100

/-- The layout of U (30_encoding.md R97): the level in bits 63:56, the index in bits 55:0; with the rule's examples. -/
def Obligations.NodeIdentifierHoldsLevelAndIndex : Prop :=
  (∀ (level : BitVec 8) (index : BitVec 56), nodeIdent (level.setWidth 64) (index.setWidth 64) = level ++ index) ∧
  nodeIdent 1 0 = 0x0100000000000000 ∧ nodeIdent 2 1 = 0x0200000000000001

/-- ENCODE_NODE (42_parameter_encoder.md R179), OP 0x03: NOT_CONFIGURED, then ARG_RANGE; else N_BUF[0..14] = Q, N_BUF[15..22] =
PB_K, N_BUF[23] = U, N_BUF[24] = V, all defined, N_BUF[25..88] unchanged, and nothing else but STATUS. The scheduler's
node inputs have the same layout: Q, PB_K, U, V and the 64 data words (R177, 41_compression.md R154). -/
def Obligations.EncodeNodeWritesTheHeader : Prop :=
  decode 0x0000000000000003 = .ok .encodeNode ∧
  (∀ (pb : ParamBlock) (c : NodeCall),
    compressNode pb c = compressF pb.r.toNat (nodeInput pb c) ∧
    (∀ j (h : j < 15), (nodeInput pb c)[j] = publishedQ.getD j 0) ∧
    (∀ j (h : j < 8), (nodeInput pb c)[15 + j] = pb.k[j]) ∧
    (nodeInput pb c)[23] = (BitVec.ofNat 64 c.level <<< 56) ^^^ BitVec.ofNat 64 c.index ∧
    (nodeInput pb c)[24] =
      controlWord pb.r pb.l (BitVec.ofNat 64 c.z) (BitVec.ofNat 64 c.p) pb.keylen pb.d ∧
    (∀ j (h : j < 64), (nodeInput pb c)[25 + j] = c.data.getD j 0)) ∧
  ∀ s : State,
    let inRange := s.encLevel.toNat ≤ 255 ∧ s.encIndex.toNat < 2 ^ 56 ∧ s.encZ.toNat ≤ 1 ∧ s.encP.toNat ≤ 4096
    (s.status.pbValid = false → ∃ t, exec .encodeNode s = .next t ∧ EndsInError s t .notConfigured) ∧
    (s.status.pbValid = true → ¬inRange → ∃ t, exec .encodeNode s = .next t ∧ EndsInError s t .argRange) ∧
    (s.status.pbValid = true → inRange → ∃ t, exec .encodeNode s = .next t ∧
      (∀ j (h : j < 15), t.nBuf[j] = ⟨publishedQ.getD j 0, true⟩) ∧
      (∀ j (h : j < 8), t.nBuf[15 + j] = ⟨s.pb.k[j], true⟩) ∧
      t.nBuf[23] = ⟨(s.encLevel <<< 56) ^^^ s.encIndex, true⟩ ∧
      t.nBuf[24] = ⟨controlWord s.pb.r s.pb.l s.encZ s.encP s.pb.keylen s.pb.d, true⟩ ∧
      (∀ j (h : j < 89), 25 ≤ j → t.nBuf[j] = s.nBuf[j]) ∧
      t = { s with nBuf := t.nBuf, status := Success s.status })

/-- The parameter block changes only at a successful CONFIGURE, at SOFT_RESET and at the reset event
(42_parameter_encoder.md R180). -/
def Obligations.ParameterBlockIsImmutable : Prop :=
  ∀ s t : State, step s = .next t →
    t.pb = s.pb ∨
    (s.host.moves.head? = some .reset ∧ s.status.busy = false) ∨
    (CoreRuns s .configure ∧ t.status.busy = false ∧ t.status.err = false ∧ t.status.pbValid = true) ∨
    (CoreRuns s .softReset ∧ t.status.busy = false ∧ t.status.err = false ∧ t.status.pbValid = false)

/-! ## The tree scheduler and the accumulator -/

/-- The root the accumulator computes (44_cv_accumulator.md R241 to R246) is TOP(M) over the bit string of the message
(43_tree_scheduler.md R205), for every message and parameter block (44_cv_accumulator.md R249). -/
def Obligations.AccumulatorComputesTop : Prop :=
  ∀ (pb : ParamBlock) (msg : List Byte), (accRun pb msg).2 = top pb (bitsOfBytes msg)

/-- HASH (43_tree_scheduler.md R208), OP 0x05: NOT_CONFIGURED, MSG_TOO_LONG, F_UNDEFINED_INPUT, in this order, before any write;
else CV_OUT = TOP(M), DIGEST is its digest bytes and then zeros, DIGEST_VALID and CV_VALID are set, WIN_VALID is 0, and
nothing else changes but STATUS, the accumulator and the window, of whose values nothing is said. -/
def Obligations.HashLeavesTheDigestOfTheMessage : Prop :=
  decode 0x0000000000000005 = .ok .hash ∧
  ∀ s : State,
    (s.status.pbValid = false → ∃ t, exec .hash s = .next t ∧ EndsInError s t .notConfigured) ∧
    (s.status.pbValid = true → Config.msgCapBytes < s.msgLen.toNat →
      ∃ t, exec .hash s = .next t ∧ EndsInError s t .msgTooLong) ∧
    (s.status.pbValid = true → s.msgLen.toNat ≤ Config.msgCapBytes →
      (∃ a, a < s.msgLen.toNat ∧ Memory.read s.mem (0x10000 + a) = none) →
      ∃ t, exec .hash s = .next t ∧ RecordsOnly s t .undefinedInput) ∧
    (∀ msg : List Byte, s.status.pbValid = true → s.msgLen.toNat ≤ Config.msgCapBytes →
      msg.length = s.msgLen.toNat → (∀ a (h : a < msg.length), Memory.read s.mem (0x10000 + a) = some msg[a]) →
      ∃ t, exec .hash s = .next t ∧
        t.cvOut = top s.pb (bitsOfBytes msg) ∧
        (∀ a, a < 64 → (t.digest[a / 8]?.getD 0).extractLsb' (56 - 8 * (a % 8)) 8 =
          (digestBytes (top s.pb (bitsOfBytes msg)) s.pb.d.toNat).getD a 0) ∧
        t = { s with
          cvOut := t.cvOut
          digest := t.digest
          acc := t.acc
          win := t.win
          freeIndex := t.freeIndex
          status := { Success s.status with digestValid := true, cvValid := true, winValid := false } })

/-- The DIGEST words hold the last d bits of the chaining value, most significant first and left-justified, and zeros
after them (43_tree_scheduler.md R207, 10_state.md R37, 70_reset_and_hazards.md R310). -/
def Obligations.DigestIsTheLastBitsLeftJustified : Prop :=
  ∀ (c : Cv) (d : Nat), 1 ≤ d → d ≤ 512 → ∀ n, n < 512 →
    ((digestWords c d).toList.flatMap bitsMsbFirst).getD n false =
      if n < d then (bitsOfCv c).getD (1024 - d + n) false else false

/-- In one HASH exactly one compression call has z = 1, the last one, and its output is TOP(M) (43_tree_scheduler.md
R209). -/
def Obligations.OnlyTheLastCallIsFinal : Prop :=
  ∀ (pb : ParamBlock) (x : List Bool), ∃ earlier last, topCalls pb x = earlier ++ [last] ∧
    last.z = 1 ∧ (∀ c ∈ earlier, c.z = 0) ∧ compressNode pb last = top pb x

/-- Every compression call of one HASH has its own pair (level, index), levels run from 1 to L + 1 at most, and indices
from 0 within each level (43_tree_scheduler.md R211). -/
def Obligations.CallsHaveDistinctNodes : Prop :=
  ∀ (pb : ParamBlock) (x : List Bool),
    ((topCalls pb x).map fun c => (c.level, c.index)).Nodup ∧
    ∀ c ∈ topCalls pb x, 1 ≤ c.level ∧ c.level ≤ pb.l.toNat + 1 ∧
      ∀ i, i < c.index → ∃ e ∈ topCalls pb x, e.level = c.level ∧ e.index = i

/-- The shape of the tree, that is every call's level, index, z and p, depends on L and the message length alone; so the
key does not change it (42_parameter_encoder.md R181, 43_tree_scheduler.md R213). -/
def Obligations.KeyDoesNotChangeTheTreeShape : Prop :=
  ∀ (pb qb : ParamBlock) (x y : List Bool), pb.l = qb.l → x.length = y.length →
    (topCalls pb x).map (fun c => (c.level, c.index, c.z, c.p)) =
      (topCalls qb y).map (fun c => (c.level, c.index, c.z, c.p))

/-- With L >= 27 no message the block accepts reaches the sequential level: every call stands at a level up to 27
(43_tree_scheduler.md R214). -/
def Obligations.DefaultHeightNeverReachesTheSequentialLevel : Prop :=
  ∀ (pb : ParamBlock) (msg : List Byte), 27 ≤ pb.l.toNat → msg.length ≤ Config.msgCapBytes →
    ∀ c ∈ topCalls pb (bitsOfBytes msg), c.level ≤ 27

/-- The empty message makes one compression call, node (1, 0) with z = 1 and zero data, with p = 4096 in Tree mode and
p = 3072 in Sequential mode (43_tree_scheduler.md R210). -/
def Obligations.EmptyMessageMakesOneCall : Prop :=
  ∀ pb : ParamBlock,
    (1 ≤ pb.l.toNat → topCalls pb [] = [⟨1, 0, 1, 4096, List.replicate 64 0⟩]) ∧
    (pb.l.toNat = 0 → topCalls pb [] = [⟨1, 0, 1, 3072, List.replicate 64 0⟩])

/-- HASH does not read MSG bytes at or above MSG_LEN, nor KEY; CONFIGURE does not read KEY bytes at or above keylen, nor
MSG: what the memory holds there changes neither what they do nor whether they fault (43_tree_scheduler.md R208,
42_parameter_encoder.md R173, 93 U7). -/
def Obligations.BytesBeyondTheLengthAreNotRead : Prop :=
  ∀ (s : State) (m : Memory),
    ((∀ a, a < s.msgLen.toNat → Memory.read m (0x10000 + a) = Memory.read s.mem (0x10000 + a)) →
      ∀ t, exec .hash s = .next t → exec .hash { s with mem := m } = .next { t with mem := m }) ∧
    ((∀ a, a < s.cfgKeylen.toNat → Memory.read m (0x100 + a) = Memory.read s.mem (0x100 + a)) →
      ∀ t, exec .configure s = .next t → exec .configure { s with mem := m } = .next { t with mem := m })

/-! ## Rules about every step -/

/-- FAULT is empty at the start, no step of any agent removes a member, reset and SOFT_RESET included, and a state with
FAULT non-empty is not final (10_state.md R40). -/
def Obligations.FaultIsNeverCleared : Prop :=
  State.reset.fault = [] ∧
  (∀ s t : State, step s = .next t → ∀ f ∈ s.fault, f ∈ t.fault) ∧
  ∀ s : State, s.fault ≠ [] → ¬Final s

/-- Every step keeps STATUS, PENDING, the parameter block and FAULT legal (10_state.md R29 to R31, R40, 60_exceptions.md
R271, R288). -/
def Obligations.StepKeepsControlInvariant : Prop :=
  ∀ s t : State, ControlInv s → step s = .next t → ControlInv t

/-- Every step keeps the memory in its canonical form, with bytes of KEY and MSG only (20_memory.md R60, R67). -/
def Obligations.StepKeepsMemoryInvariant : Prop :=
  ∀ s t : State, MemoryInv s → step s = .next t → MemoryInv t

/-- The next step writes the window: STEP or ROUND with one loaded, or LOAD_N or COMPRESS with its input defined
(20_memory.md R77). -/
def WritesWindow (s : State) : Prop :=
  (s.status.winValid = true ∧ ∃ m, CoreRuns s (.step m) ∨ CoreRuns s (.round m)) ∨
  ((∀ j (h : j < 89), s.nBuf[j].defined = true) ∧
    (CoreRuns s .loadN ∨ (CoreRuns s .compress ∧ s.status.pbValid = true)))

/-- Every step keeps the window, S_REG and STEP_CTR on the working array of its input N, also when STEP_CTR wraps: STEP m
and ROUND m go m and 16·m steps on in the array of the same N, LOAD_N and COMPRESS start the array of N = N_BUF, and every
other step leaves the window as it is or, with WIN_VALID = 0, undefined (10_state.md R33 to R35, 40_round_function.md R126,
R128 to R130, R132, 41_compression.md R153). -/
def Obligations.StepKeepsWindowInvariant : Prop :=
  ∀ s t : State, step s = .next t →
    (WindowInv s → WindowInv t) ∧
    (∀ n k, s.status.winValid = true → HoldsArray s.win n k →
      (∀ m, CoreRuns s (.step m) → t.status.winValid = true ∧ HoldsArray t.win n (k + m)) ∧
      (∀ m, CoreRuns s (.round m) → t.status.winValid = true ∧ HoldsArray t.win n (k + 16 * m)) ∧
      (¬WritesWindow s → t.status.winValid = true → HoldsArray t.win n k)) ∧
    (∀ n : Words89, (∀ j (h : j < 89), s.nBuf[j] = ⟨n[j], true⟩) →
      (CoreRuns s .loadN → t.status.winValid = true ∧ HoldsArray t.win n 0) ∧
      (CoreRuns s .compress → s.status.pbValid = true →
        t.status.winValid = true ∧ HoldsArray t.win n (16 * s.pb.r.toNat))) ∧
    (¬WritesWindow s → t.status.winValid = true → s.status.winValid = true ∧ t.win = s.win)

/-- Every step keeps the accumulator within its capacity (44_cv_accumulator.md R240, R248). -/
def Obligations.StepKeepsAccumulatorInvariant : Prop :=
  ∀ s t : State, ControlInv s → AccumulatorInv s → step s = .next t → AccumulatorInv t

/-- The four invariants hold at reset. -/
def Obligations.ResetMeetsTheInvariants : Prop :=
  ControlInv State.reset ∧ MemoryInv State.reset ∧ WindowInv State.reset ∧ AccumulatorInv State.reset

/-- A WAIT on a pending command ends: the command completes at the core's turn and the third step leaves the loop, unless
the command ended in a model fault (30_encoding.md R101, 70_reset_and_hazards.md R311, R312). That the core gets its turn
after a poll is the schedule of log entry 1. -/
def Obligations.WaitEndsUnlessTheCommandFaults : Prop :=
  ∀ (s : State) (rest : List HostMove), s.host.moves = .wait :: rest → s.status.busy = true → s.fault = [] →
    ∃ t, Host.Core.run Sys2Proof.core 3 s = .next t ∧
      ((t.host.moves = rest ∧ t.status.busy = false ∧ t.fault = []) ∨ t.fault ≠ [])
end

