-- ==== Sys2Proof/Laws/Decode.lean ====
section
/-! SUPPORT. Decoding and encoding, field by field (30_encoding.md R90 to R93). -/

namespace Sys2Proof

/-- The four fields of an encoded command (30_encoding.md R90). -/
theorem encode_fields (i : Instr) :
    opField (encode i) = i.op ∧ rsv1Field (encode i) = 0 ∧ countField (encode i) = BitVec.ofNat 16 i.count ∧
      rsv2Field (encode i) = 0 := by
  refine ⟨?_, ?_, ?_, ?_⟩ <;> apply BitVec.eq_of_getLsbD_eq <;> intro k hk <;>
    simp only [opField, rsv1Field, countField, rsv2Field, encode, BitVec.getLsbD_extractLsb', BitVec.getLsbD_append, hk,
      decide_true, Bool.true_and]
  · rw [if_pos (by omega)]; simp
  · rw [if_neg (by omega), if_pos (by omega)]; simp
  · rw [if_neg (by omega), if_neg (by omega), if_pos (by omega)]; congr 1; omega
  · rw [if_neg (by omega), if_neg (by omega), if_neg (by omega)]; simp

/-- The four fields make up the whole word (30_encoding.md R90). -/
theorem word_ext (w v : Word) (h1 : opField w = opField v) (h2 : rsv1Field w = rsv1Field v)
    (h3 : countField w = countField v) (h4 : rsv2Field w = rsv2Field v) : w = v := by
  apply BitVec.eq_of_getLsbD_eq
  intro k hk
  have e1 := fun j => congrArg (fun x => x.getLsbD j) h1
  have e2 := fun j => congrArg (fun x => x.getLsbD j) h2
  have e3 := fun j => congrArg (fun x => x.getLsbD j) h3
  have e4 := fun j => congrArg (fun x => x.getLsbD j) h4
  simp only [opField, rsv1Field, countField, rsv2Field, BitVec.getLsbD_extractLsb'] at e1 e2 e3 e4
  by_cases c1 : k < 8
  · simpa [c1] using e1 k
  by_cases c2 : k < 16
  · have := e2 (k-8); simpa [show k - 8 < 8 by omega, show 8 + (k-8) = k by omega] using this
  by_cases c3 : k < 32
  · have := e3 (k-16); simpa [show k - 16 < 16 by omega, show 16 + (k-16) = k by omega] using this
  · have := e4 (k-32); simpa [show k - 32 < 32 by omega, show 32 + (k-32) = k by omega] using this

/-- A row whose whole word is fixed selects one word (30_encoding.md R92). -/
theorem selects_fixed (w p : Word) : ((w &&& fixedMask) == p) = (w == p) := by
  have : w &&& fixedMask = w := by
    have : fixedMask = BitVec.allOnes 64 := by decide
    rw [this, BitVec.and_allOnes]
  rw [this]

/-- A row that leaves COUNT free selects the words with its OP and zero reserved fields (30_encoding.md R92). -/
theorem selects_count (w : Word) (op : BitVec 8) :
    w &&& countMask = 0#32 ++ 0#16 ++ 0#8 ++ op ↔ opField w = op ∧ rsv1Field w = 0 ∧ rsv2Field w = 0 := by
  have hb : ∀ k, k < 64 → (w &&& countMask).getLsbD k = (w.getLsbD k && !(16 ≤ k && k < 32)) := by
    intro k hk
    rw [BitVec.getLsbD_and]; congr 1
    interval_cases k <;> decide
  constructor
  · intro h
    have e := fun k => congrArg (fun x => x.getLsbD k) h
    refine ⟨?_, ?_, ?_⟩ <;> apply BitVec.eq_of_getLsbD_eq <;> intro k hk <;>
      simp only [opField, rsv1Field, rsv2Field, BitVec.getLsbD_extractLsb', hk, decide_true, Bool.true_and]
    · have := e (0+k); simp only [BitVec.getLsbD_append] at this
      rw [hb _ (by omega), if_pos (by omega)] at this
      simpa [show ¬ 16 ≤ k by omega] using this
    · have := e (8+k); simp only [BitVec.getLsbD_append] at this
      rw [hb _ (by omega), if_neg (by omega), if_pos (by omega)] at this
      simpa [show ¬ 16 ≤ 8+k by omega] using this
    · have := e (32+k); simp only [BitVec.getLsbD_append] at this
      rw [hb _ (by omega), if_neg (by omega), if_neg (by omega), if_neg (by omega)] at this
      simpa [show ¬ 32+k<32 by omega] using this
  · rintro ⟨h1,h2,h3⟩
    apply BitVec.eq_of_getLsbD_eq
    intro k hk
    have e1 := fun j => congrArg (fun x => x.getLsbD j) h1
    have e2 := fun j => congrArg (fun x => x.getLsbD j) h2
    have e4 := fun j => congrArg (fun x => x.getLsbD j) h3
    simp only [opField, rsv1Field, rsv2Field, BitVec.getLsbD_extractLsb'] at e1 e2 e4
    rw [hb k hk]
    simp only [BitVec.getLsbD_append]
    split_ifs with c1 c2 c3
    · have := e1 k
      rw [decide_eq_true c1, Bool.true_and, Nat.zero_add] at this
      simp [this, show ¬16 ≤ k by omega]
    · have := e2 (k - 8)
      rw [decide_eq_true (by omega), Bool.true_and, show 8 + (k - 8) = k by omega] at this
      simp [this]
    · simp [show 16 ≤ k by omega, show k < 32 by omega]
    · have := e4 (k - 32)
      rw [decide_eq_true (by omega), Bool.true_and, show 32 + (k - 32) = k by omega] at this
      simp [this]

/-- Words are equal when their four fields are. -/
theorem word_eq_iff (w v : Word) :
    w = v ↔ opField w = opField v ∧ rsv1Field w = rsv1Field v ∧ countField w = countField v ∧
      rsv2Field w = rsv2Field v :=
  ⟨fun h => by subst h; simp, fun ⟨a,b,c,d⟩ => word_ext w v a b c d⟩

/-- A row whose whole word is fixed, field by field (30_encoding.md R92). -/
theorem selects_op (w : Word) (n : Nat) (hn : n < 256) :
    (w == BitVec.ofNat 64 n) = (decide (opField w = BitVec.ofNat 8 n) && decide (rsv1Field w = 0) &&
      decide (countField w = 0) && decide (rsv2Field w = 0)) := by
  have h1 : opField (BitVec.ofNat 64 n) = BitVec.ofNat 8 n := by
    apply BitVec.eq_of_toNat_eq
    simp only [opField, BitVec.extractLsb'_toNat, BitVec.toNat_ofNat, Nat.shiftRight_zero]
    omega
  have h2 : rsv1Field (BitVec.ofNat 64 n) = 0 := by
    apply BitVec.eq_of_toNat_eq
    simp [rsv1Field, Nat.shiftRight_eq_div_pow]
    omega
  have h3 : countField (BitVec.ofNat 64 n) = 0 := by
    apply BitVec.eq_of_toNat_eq
    simp [countField, Nat.shiftRight_eq_div_pow]
    omega
  have h4 : rsv2Field (BitVec.ofNat 64 n) = 0 := by
    apply BitVec.eq_of_toNat_eq
    simp [rsv2Field, Nat.shiftRight_eq_div_pow]
    omega
  rw [Bool.eq_iff_iff, beq_iff_eq, word_eq_iff, h1, h2, h3, h4]
  simp only [Bool.and_eq_true, decide_eq_true_eq, and_assoc]

/-- A row that leaves COUNT free, field by field (30_encoding.md R92). -/
theorem selects_count_op (w : Word) (n : Nat)
    (hn : (0#32 ++ 0#16 ++ 0#8 ++ BitVec.ofNat 8 n : Word) = BitVec.ofNat 64 n) :
    (w &&& countMask == BitVec.ofNat 64 n) = (decide (opField w = BitVec.ofNat 8 n) && decide (rsv1Field w = 0) &&
      decide (rsv2Field w = 0)) := by
  rw [Bool.eq_iff_iff, beq_iff_eq, ← hn, selects_count]
  simp only [Bool.and_eq_true, decide_eq_true_eq, and_assoc]

/-- Decoding, field by field (30_encoding.md R92, R93). -/
theorem decode_eq (w : Word) : decode w =
    if rsv1Field w = 0 ∧ rsv2Field w = 0 then
      if opField w = 7 then .ok (.step (countField w).toNat)
      else if opField w = 8 then .ok (.round (countField w).toNat)
      else if countField w = 0 then
        if opField w = 0 then .ok .nop
        else if opField w = 1 then .ok .softReset
        else if opField w = 2 then .ok .configure
        else if opField w = 3 then .ok .encodeNode
        else if opField w = 4 then .ok .compress
        else if opField w = 5 then .ok .hash
        else if opField w = 6 then .ok .loadN
        else if opField w = 9 then .ok .readCv
        else .error (illegalReason w)
      else .error (illegalReason w)
    else .error (illegalReason w) := by
  unfold decode
  simp only [cmdTable, CmdRow.selects, List.find?, selects_fixed, BitVec.ofNat_eq_ofNat]
  rw [selects_op w 0 (by omega), selects_op w 1 (by omega), selects_op w 2 (by omega), selects_op w 3 (by omega),
    selects_op w 4 (by omega), selects_op w 5 (by omega), selects_op w 6 (by omega), selects_count_op w 7 rfl,
    selects_count_op w 8 rfl, selects_op w 9 (by omega)]
  simp only [BitVec.ofNat_eq_ofNat]
  generalize opField w = o
  generalize illegalReason w = ill
  generalize (countField w).toNat = n
  by_cases r1 : rsv1Field w = 0#8
  case neg => simp only [r1, decide_false, Bool.and_false, Bool.false_and, false_and, if_false]
  by_cases r2 : rsv2Field w = 0#32
  case neg => simp only [r2, decide_false, Bool.and_false, and_false, if_false]
  simp only [r1, r2, decide_true, Bool.and_true, and_self, if_true]
  by_cases cc : countField w = 0#16
  · simp only [cc, decide_true, Bool.and_true, if_true]
    by_cases h0 : o = 0#8
    · subst h0; rfl
    by_cases h1 : o = 1#8
    · subst h1; rfl
    by_cases h2 : o = 2#8
    · subst h2; rfl
    by_cases h3 : o = 3#8
    · subst h3; rfl
    by_cases h4 : o = 4#8
    · subst h4; rfl
    by_cases h5 : o = 5#8
    · subst h5; rfl
    by_cases h6 : o = 6#8
    · subst h6; rfl
    by_cases h7 : o = 7#8
    · subst h7; rfl
    by_cases h8 : o = 8#8
    · subst h8; rfl
    by_cases h9 : o = 9#8
    · subst h9; rfl
    simp [h0, h1, h2, h3, h4, h5, h6, h7, h8, h9]
  · simp only [cc, decide_false, Bool.and_false, if_false]
    by_cases h7 : o = 7#8
    · subst h7; rfl
    by_cases h8 : o = 8#8
    · subst h8; rfl
    simp [h7, h8]

end Sys2Proof
end

