-- ==== Sys2Proof/Laws/Ops.lean ====
section
/-! SUPPORT. What the shared operations can do: recording model faults, the operand checks, and host accesses. -/

namespace Sys2Proof.Machine

/-- Recording a model fault changes FAULT alone. -/
theorem recordFault_eq (f : ModelFault) (s : State) :
    recordFault f s = { s with fault := (recordFault f s).fault } := by
  unfold recordFault
  split <;> rfl

/-- Recording a model fault adds it to FAULT and removes nothing. -/
theorem mem_recordFault (f g : ModelFault) (s : State) :
    g ∈ (recordFault f s).fault ↔ g ∈ s.fault ∨ g = f := by
  unfold recordFault
  split
  · rename_i h
    constructor
    · exact .inl
    · rintro (h' | rfl) <;> assumption
  · simp

/-- FAULT stays without repeats. -/
theorem nodup_recordFault (f : ModelFault) (s : State) (h : s.fault.Nodup) : (recordFault f s).fault.Nodup := by
  unfold recordFault
  split
  · exact h
  · rename_i hf
    exact List.nodup_append.mpr ⟨h, by simp, fun a ha b hb e => hf (by simp_all)⟩

/-- Recording model faults changes FAULT alone. -/
theorem recordFaults_eq (fs : List ModelFault) (s : State) :
    recordFaults fs s = { s with fault := (recordFaults fs s).fault } := by
  induction fs generalizing s with
  | nil => rfl
  | cons f fs ih =>
    show recordFaults fs (recordFault f s) = { s with fault := (recordFaults fs (recordFault f s)).fault }
    rw [ih, recordFault_eq]

/-- Recording model faults adds them to FAULT and removes nothing. -/
theorem mem_recordFaults (fs : List ModelFault) (g : ModelFault) (s : State) :
    g ∈ (recordFaults fs s).fault ↔ g ∈ s.fault ∨ g ∈ fs := by
  induction fs generalizing s with
  | nil => simp [recordFaults]
  | cons f fs ih =>
    show g ∈ (recordFaults fs (recordFault f s)).fault ↔ _
    rw [ih, mem_recordFault, List.mem_cons, or_assoc]

/-- FAULT stays without repeats. -/
theorem nodup_recordFaults (fs : List ModelFault) (s : State) (h : s.fault.Nodup) :
    (recordFaults fs s).fault.Nodup := by
  induction fs generalizing s with
  | nil => exact h
  | cons f fs ih => exact ih _ (nodup_recordFault f s h)

/-- N_BUF as an operand, when every word is defined. -/
theorem nBufWords_eq_some (s : State) (n : Words89) (h : ∀ j (hj : j < 89), s.nBuf[j] = ⟨n[j], true⟩) :
    nBufWords s = some n := by
  rw [nBufWords, if_pos]
  · exact congrArg some (Vector.ext fun j hj => by simp [h j hj])
  · rw [List.all_eq_true]
    intro e he
    obtain ⟨j, hj, rfl⟩ := List.mem_iff_getElem.mp he
    simp only [Vector.length_toList] at hj
    simp [h j hj]

/-- N_BUF is no operand when a word is undefined. -/
theorem nBufWords_eq_none (s : State) (j : Nat) (hj : j < 89) (h : s.nBuf[j].defined = false) :
    nBufWords s = none := by
  rw [nBufWords, if_neg]
  intro hall
  have := List.all_eq_true.mp hall s.nBuf[j] (by simp)
  simp [h] at this

/-- A write either has no fault and stores its word, or changes FAULT alone. -/
theorem hostWrite_cases (off width : Nat) (v : Word) (s : State) :
    (writeFaults off width s = [] ∧ ∃ e, elementAt off = some e ∧ hostWrite off width v s = writeElement v s e) ∨
    (writeFaults off width s ≠ [] ∧ hostWrite off width v s = recordFaults (writeFaults off width s) s) := by
  unfold hostWrite
  split
  · rename_i h
    left
    refine ⟨h, ?_⟩
    cases he : elementAt off with
    | none => simp [writeFaults, faultIf, he] at h
    | some e => exact ⟨e, rfl, rfl⟩
  · exact .inr ⟨by assumption, rfl⟩

/-- A read either has no fault and notes the value, or notes that there is none and changes FAULT. -/
theorem hostRead_cases (off width : Nat) (s : State) :
    (readFaults off width s = [] ∧ hostRead off width s = noteRead (readValue off s) s) ∨
    (readFaults off width s ≠ [] ∧ hostRead off width s = noteRead none (recordFaults (readFaults off width s) s)) := by
  unfold hostRead
  split
  · exact .inl ⟨by assumption, rfl⟩
  · exact .inr ⟨by assumption, rfl⟩

end Sys2Proof.Machine
end

