-- ==== Sys2Proof/Laws/Exec.lean ====
section
/-! SUPPORT. What each command's meaning can do: one lemma per meaning, and one for all of them. -/

namespace Sys2Proof.Machine

/-- No check of CONFIGURE fails exactly on a legal configuration (42_parameter_encoder.md R170). -/
theorem configError_eq_none_iff (s : State) : configError s = none ↔
    1 ≤ s.cfgD.toNat ∧ s.cfgD.toNat ≤ 512 ∧ s.cfgKeylen.toNat ≤ 64 ∧ s.cfgL.toNat ≤ 64 ∧
      (s.rOverride = true → s.cfgR.toNat ≤ 255) := by
  unfold configError
  split_ifs with h1 h2 h3 h4
  · exact ⟨fun h => by simp at h, fun h => by omega⟩
  · exact ⟨fun h => by simp at h, fun h => by omega⟩
  · exact ⟨fun h => by simp at h, fun h => by omega⟩
  · exact ⟨fun h => by simp at h, fun h => by have := h.2.2.2.2 h4.1; omega⟩
  · refine ⟨fun _ => ⟨by omega, by omega, by omega, by omega, fun h => ?_⟩, fun _ => rfl⟩
    by_contra h5
    exact h4 ⟨h, by omega⟩

/-- The four errors CONFIGURE can report (42_parameter_encoder.md R170). -/
theorem configError_codes (s : State) (code : ErrCode) (h : configError s = some code) :
    code = .cfgDigestLen ∨ code = .cfgKeyLen ∨ code = .cfgMode ∨ code = .cfgRounds := by
  unfold configError at h
  split_ifs at h <;> simp_all

/-- CONFIGURE reports an error, meets an undefined key byte, or latches the parameter block. -/
theorem execConfigure_cases (s : State) :
    (∃ code, configError s = some code ∧ execConfigure s = raiseError code s) ∨
    (configError s = none ∧ keyBytes s s.cfgKeylen.toNat = none ∧ execConfigure s = undefinedInput s) ∨
    (∃ key, configError s = none ∧ keyBytes s s.cfgKeylen.toNat = some key ∧ execConfigure s = succeed { s with
      pb := { d := s.cfgD, keylen := s.cfgKeylen, l := s.cfgL, r := roundsInForce s, k := keyWords key }
      status := { s.status with pbValid := true } }) := by
  unfold execConfigure
  cases hc : configError s with
  | some code => exact .inl ⟨code, rfl, rfl⟩
  | none =>
    cases hk : keyBytes s s.cfgKeylen.toNat with
    | none => exact .inr (.inl ⟨rfl, rfl, rfl⟩)
    | some key => exact .inr (.inr ⟨key, rfl, rfl, rfl⟩)

/-- ENCODE_NODE reports an error or writes the header. -/
theorem execEncodeNode_cases (s : State) :
    (s.status.pbValid = false ∧ execEncodeNode s = raiseError .notConfigured s) ∨
    (s.status.pbValid = true ∧ encodeArgsInRange s = false ∧ execEncodeNode s = raiseError .argRange s) ∨
    (s.status.pbValid = true ∧ encodeArgsInRange s = true ∧ execEncodeNode s = succeed { s with
      nBuf := tabulate fun t =>
        if t.val < 25 then ⟨(header s.pb s.encLevel s.encIndex s.encZ s.encP).getD t.val 0, true⟩ else s.nBuf[t] }) := by
  unfold execEncodeNode
  cases hp : s.status.pbValid with
  | false => exact .inl ⟨rfl, rfl⟩
  | true =>
    cases hr : encodeArgsInRange s with
    | false => exact .inr (.inl ⟨rfl, rfl, rfl⟩)
    | true => exact .inr (.inr ⟨rfl, rfl, rfl⟩)

/-- COMPRESS reports an error, meets an undefined word, or runs the compression. -/
theorem execCompress_cases (s : State) :
    (s.status.pbValid = false ∧ execCompress s = raiseError .notConfigured s) ∨
    (s.status.pbValid = true ∧ nBufWords s = none ∧ execCompress s = undefinedInput s) ∨
    (∃ n, s.status.pbValid = true ∧ nBufWords s = some n ∧ execCompress s = succeed { s with
      win := runSteps (16 * s.pb.r.toNat) (loadWindow n)
      cvOut := lastWords (runSteps (16 * s.pb.r.toNat) (loadWindow n)).w
      status := { s.status with winValid := true, cvValid := true } }) := by
  unfold execCompress
  cases hp : s.status.pbValid with
  | false => exact .inl ⟨rfl, rfl⟩
  | true =>
    cases hn : nBufWords s with
    | none => exact .inr (.inl ⟨rfl, rfl, rfl⟩)
    | some n => exact .inr (.inr ⟨n, rfl, rfl, rfl⟩)

/-- HASH reports an error, meets an undefined message byte, or leaves the digest. -/
theorem execHash_cases (s : State) :
    (s.status.pbValid = false ∧ execHash s = raiseError .notConfigured s) ∨
    (s.status.pbValid = true ∧ Config.msgCapBytes < s.msgLen.toNat ∧ execHash s = raiseError .msgTooLong s) ∨
    (s.status.pbValid = true ∧ s.msgLen.toNat ≤ Config.msgCapBytes ∧ messageBytes s = none ∧
      execHash s = undefinedInput s) ∨
    (∃ msg, s.status.pbValid = true ∧ s.msgLen.toNat ≤ Config.msgCapBytes ∧ messageBytes s = some msg ∧
      execHash s = succeed { s with
        digest := digestWords (accRun s.pb msg).2 s.pb.d.toNat
        cvOut := (accRun s.pb msg).2
        acc := (accRun s.pb msg).1
        win := undefinedWindow s.freeIndex
        freeIndex := s.freeIndex + 91
        status := { s.status with digestValid := true, cvValid := true, winValid := false } }) := by
  unfold execHash
  cases hp : s.status.pbValid with
  | false => exact .inl ⟨rfl, rfl⟩
  | true =>
    by_cases hl : Config.msgCapBytes < s.msgLen.toNat
    · exact .inr (.inl ⟨rfl, hl, if_pos hl⟩)
    · rw [if_pos rfl, if_neg hl]
      cases hm : messageBytes s with
      | none => exact .inr (.inr (.inl ⟨rfl, by omega, rfl, rfl⟩))
      | some msg => exact .inr (.inr (.inr ⟨msg, rfl, by omega, rfl, rfl⟩))

/-- LOAD_N meets an undefined word or loads the window. -/
theorem execLoadN_cases (s : State) :
    (nBufWords s = none ∧ execLoadN s = undefinedInput s) ∨
    (∃ n, nBufWords s = some n ∧
      execLoadN s = succeed { s with win := loadWindow n, status := { s.status with winValid := true } }) := by
  unfold execLoadN
  cases hn : nBufWords s with
  | none => exact .inl ⟨rfl, rfl⟩
  | some n => exact .inr ⟨n, rfl, rfl⟩

/-- STEP and ROUND report an error or advance the window. -/
theorem stepWindow_cases (n : Nat) (s : State) :
    (s.status.winValid = false ∧ stepWindow n s = raiseError .noWindow s) ∨
    (s.status.winValid = true ∧ stepWindow n s = succeed { s with win := runSteps n s.win }) := by
  unfold stepWindow
  cases hw : s.status.winValid with
  | false => exact .inl ⟨rfl, rfl⟩
  | true => exact .inr ⟨rfl, rfl⟩

/-- READ_CV reports an error or copies the last words of the window. -/
theorem execReadCv_cases (s : State) :
    (s.status.winValid = false ∧ execReadCv s = raiseError .noWindow s) ∨
    (s.status.winValid = true ∧ execReadCv s =
      succeed { s with cvOut := lastWords s.win.w, status := { s.status with cvValid := true } }) := by
  unfold execReadCv
  cases hw : s.status.winValid with
  | false => exact .inl ⟨rfl, rfl⟩
  | true => exact .inr ⟨rfl, rfl⟩

/-- A command ends in an error code of its own, in F_UNDEFINED_INPUT, or in success. -/
theorem exec_cases (i : Instr) (s : State) :
    (∃ code, code ≠ .noError ∧ code ≠ .treeHeight ∧ exec i s = raiseError code s) ∨
    exec i s = undefinedInput s ∨
    (∃ u, exec i s = succeed u ∧ u.fault = s.fault ∧ u.host = s.host) := by
  cases i with
  | nop => exact .inr (.inr ⟨_, rfl, rfl, rfl⟩)
  | softReset => exact .inr (.inr ⟨_, rfl, rfl, rfl⟩)
  | configure =>
    rcases execConfigure_cases s with ⟨code, hc, h⟩ | ⟨_, _, h⟩ | ⟨key, _, _, h⟩
    · refine .inl ⟨code, ?_, ?_, h⟩ <;> rcases configError_codes s code hc with rfl | rfl | rfl | rfl <;> decide
    · exact .inr (.inl h)
    · exact .inr (.inr ⟨_, h, rfl, rfl⟩)
  | encodeNode =>
    rcases execEncodeNode_cases s with ⟨_, h⟩ | ⟨_, _, h⟩ | ⟨_, _, h⟩
    · exact .inl ⟨_, by decide, by decide, h⟩
    · exact .inl ⟨_, by decide, by decide, h⟩
    · exact .inr (.inr ⟨_, h, rfl, rfl⟩)
  | compress =>
    rcases execCompress_cases s with ⟨_, h⟩ | ⟨_, _, h⟩ | ⟨n, _, _, h⟩
    · exact .inl ⟨_, by decide, by decide, h⟩
    · exact .inr (.inl h)
    · exact .inr (.inr ⟨_, h, rfl, rfl⟩)
  | hash =>
    rcases execHash_cases s with ⟨_, h⟩ | ⟨_, _, h⟩ | ⟨_, _, _, h⟩ | ⟨msg, _, _, _, h⟩
    · exact .inl ⟨_, by decide, by decide, h⟩
    · exact .inl ⟨_, by decide, by decide, h⟩
    · exact .inr (.inl h)
    · exact .inr (.inr ⟨_, h, rfl, rfl⟩)
  | loadN =>
    rcases execLoadN_cases s with ⟨_, h⟩ | ⟨n, _, h⟩
    · exact .inr (.inl h)
    · exact .inr (.inr ⟨_, h, rfl, rfl⟩)
  | step n =>
    rcases stepWindow_cases n s with ⟨_, h⟩ | ⟨_, h⟩
    · exact .inl ⟨_, by decide, by decide, h⟩
    · exact .inr (.inr ⟨_, h, rfl, rfl⟩)
  | round n =>
    rcases stepWindow_cases (16 * n) s with ⟨_, h⟩ | ⟨_, h⟩
    · exact .inl ⟨_, by decide, by decide, h⟩
    · exact .inr (.inr ⟨_, h, rfl, rfl⟩)
  | readCv =>
    rcases execReadCv_cases s with ⟨_, h⟩ | ⟨_, h⟩
    · exact .inl ⟨_, by decide, by decide, h⟩
    · exact .inr (.inr ⟨_, h, rfl, rfl⟩)

end Sys2Proof.Machine
end

