-- ==== Sys2Proof/Laws/Memory.lean ====
section
/-! SUPPORT. The byte memory: a read after a write, and the canonical form, which every operation keeps. -/

namespace Sys2Proof.Machine

theorem Memory.wf_iff (m : Memory) : Memory.wf m = true ↔ m.Pairwise fun x y => x.1 < y.1 := by simp [Memory.wf]

theorem Memory.wf_nil : Memory.wf [] = true := by simp [Memory.wf]

/-- The memory of the reset state is in its canonical form. -/
theorem Memory.wf_reset : Memory.wf State.reset.mem = true := Memory.wf_nil

@[simp] theorem Memory.read_nil (a : Nat) : Memory.read [] a = none := rfl

theorem Memory.read_cons (x : Nat) (c : Byte) (m : Memory) (a : Nat) :
    Memory.read ((x, c) :: m) a = if x = a then some c else Memory.read m a := rfl

/-- A byte written is read back, and every other byte keeps its value. -/
theorem Memory.read_write (m : Memory) (a : Nat) (b : Byte) (a' : Nat) :
    Memory.read (Memory.write m a b) a' = if a' = a then some b else Memory.read m a' := by
  induction m with
  | nil =>
    rw [Memory.write, Memory.read_cons]
    simp only [eq_comm]
  | cons c m ih =>
    obtain ⟨x, c⟩ := c
    by_cases h1 : a < x
    · rw [Memory.write, if_pos h1, Memory.read_cons]
      simp only [eq_comm]
    · by_cases h2 : a = x
      · subst h2
        rw [Memory.write, if_neg h1, if_pos rfl, Memory.read_cons, Memory.read_cons]
        by_cases h : a = a' <;> simp [h, eq_comm]
      · rw [Memory.write, if_neg h1, if_neg h2, Memory.read_cons, Memory.read_cons, ih]
        by_cases h : x = a'
        · have : a' ≠ a := by omega
          simp [h, this]
        · simp [h]

theorem Memory.mem_write (m : Memory) (a : Nat) (b : Byte) (c : Host.Cell) (h : c ∈ Memory.write m a b) :
    c = (a, b) ∨ c ∈ m := by
  induction m with
  | nil => simpa [Memory.write] using h
  | cons d m ih =>
    obtain ⟨x, d⟩ := d
    simp only [Memory.write] at h
    split_ifs at h
    · simpa using h
    · rcases List.mem_cons.mp h with h | h
      · exact .inl h
      · exact .inr (List.mem_cons_of_mem _ h)
    · rcases List.mem_cons.mp h with h | h
      · exact .inr (h ▸ List.mem_cons_self)
      · exact (ih h).imp id (List.mem_cons_of_mem _)

/-- A write keeps the canonical form. -/
theorem Memory.wf_write (m : Memory) (a : Nat) (b : Byte) (h : Memory.wf m = true) :
    Memory.wf (Memory.write m a b) = true := by
  rw [Memory.wf_iff] at h ⊢
  induction m with
  | nil => simp [Memory.write]
  | cons c m ih =>
    obtain ⟨x, c⟩ := c
    obtain ⟨h1, h2⟩ := List.pairwise_cons.mp h
    simp only [Memory.write]
    split_ifs with h3 h4
    · refine List.pairwise_cons.mpr ⟨fun y hy => ?_, h⟩
      rcases List.mem_cons.mp hy with rfl | hy
      · exact h3
      · exact h3.trans (h1 y hy)
    · exact List.pairwise_cons.mpr ⟨fun y hy => h4 ▸ h1 y hy, h2⟩
    · refine List.pairwise_cons.mpr ⟨fun y hy => ?_, ih h2⟩
      rcases Memory.mem_write m a b y hy with rfl | hy
      · show x < a
        omega
      · exact h1 y hy

/-- Writing a word is writing its eight bytes in turn. -/
theorem Memory.writeWord_eq (m : Memory) (off : Nat) (v : Word) :
    Memory.writeWord m off v =
      Memory.write (Memory.write (Memory.write (Memory.write (Memory.write (Memory.write (Memory.write
        (Memory.write m off (byteOfWord v 0)) (off + 1) (byteOfWord v 1)) (off + 2) (byteOfWord v 2))
        (off + 3) (byteOfWord v 3)) (off + 4) (byteOfWord v 4)) (off + 5) (byteOfWord v 5))
        (off + 6) (byteOfWord v 6)) (off + 7) (byteOfWord v 7) := rfl

/-- A word write keeps the canonical form. -/
theorem Memory.wf_writeWord (m : Memory) (off : Nat) (v : Word) (h : Memory.wf m = true) :
    Memory.wf (Memory.writeWord m off v) = true := by
  rw [Memory.writeWord_eq]
  iterate 8 apply Memory.wf_write
  exact h

/-- A word write lists the bytes of its word beside what was listed. -/
theorem Memory.mem_writeWord (m : Memory) (off : Nat) (v : Word) (c : Host.Cell)
    (h : c ∈ Memory.writeWord m off v) : (off ≤ c.1 ∧ c.1 < off + 8) ∨ c ∈ m := by
  rw [Memory.writeWord_eq] at h
  iterate 8
    rcases Memory.mem_write _ _ _ _ h with rfl | h
    · left; constructor <;> simp
  exact .inr h

/-- The bytes after a word write: the word's own bytes, and the others as before. -/
theorem Memory.read_writeWord (m : Memory) (off : Nat) (v : Word) (a : Nat) :
    Memory.read (Memory.writeWord m off v) a =
      if off ≤ a ∧ a < off + 8 then some (byteOfWord v (a - off)) else Memory.read m a := by
  simp only [Memory.writeWord_eq, Memory.read_write]
  by_cases h : off ≤ a ∧ a < off + 8
  · obtain ⟨k, rfl⟩ : ∃ k, a = off + k := ⟨a - off, by omega⟩
    have hk : k = 0 ∨ k = 1 ∨ k = 2 ∨ k = 3 ∨ k = 4 ∨ k = 5 ∨ k = 6 ∨ k = 7 := by omega
    rcases hk with rfl | rfl | rfl | rfl | rfl | rfl | rfl | rfl <;> simp
  · rw [if_neg h]
    have : ∀ k, k < 8 → a ≠ off + k := fun k _ => by omega
    simp [this 1, this 2, this 3, this 4, this 5, this 6, this 7, show a ≠ off by omega]

/-- The bits of the word of eight bytes (20_memory.md R66). -/
theorem getLsbD_wordOfBytes (x : Nat → Byte) (i : Nat) (hi : i < 64) :
    (wordOfBytes x).getLsbD i = (x (7 - i / 8)).getLsbD (i % 8) := by
  simp only [wordOfBytes, BitVec.getLsbD_append]
  have : i / 8 < 8 := by omega
  generalize hq : i / 8 = q at *
  generalize hr : i % 8 = r at *
  obtain rfl : i = 8 * q + r := by omega
  interval_cases q <;> (repeat' split) <;> (first | omega | (congr 1; omega))

/-- Joining the eight bytes of a word gives the word (20_memory.md R66). -/
theorem wordOfBytes_byteOfWord (v : Word) : wordOfBytes (byteOfWord v) = v := by
  apply BitVec.eq_of_getLsbD_eq
  intro i hi
  rw [getLsbD_wordOfBytes _ _ hi, byteOfWord, BitVec.getLsbD_extractLsb', decide_eq_true (by omega), Bool.true_and]
  congr 1
  omega

/-- Byte a of the word of eight bytes is the a-th of them (20_memory.md R66). -/
theorem byteOfWord_wordOfBytes (x : Nat → Byte) (a : Nat) (h : a < 8) :
    byteOfWord (wordOfBytes x) a = x a := by
  apply BitVec.eq_of_getLsbD_eq
  intro i hi
  rw [byteOfWord, BitVec.getLsbD_extractLsb', decide_eq_true hi, Bool.true_and, getLsbD_wordOfBytes _ _ (by omega)]
  congr 1 <;> [congr 1; skip] <;> omega

/-- A word of a byte region is read as the word of its bytes when all eight are defined, and not otherwise. -/
theorem Memory.readWord_eq_some (m : Memory) (off : Nat) (x : Nat → Byte)
    (h : ∀ a, a < 8 → Memory.read m (off + a) = some (x a)) : Memory.readWord m off = some (wordOfBytes x) := by
  have h0 := h 0 (by omega)
  have h1 := h 1 (by omega)
  have h2 := h 2 (by omega)
  have h3 := h 3 (by omega)
  have h4 := h 4 (by omega)
  have h5 := h 5 (by omega)
  have h6 := h 6 (by omega)
  have h7 := h 7 (by omega)
  simp only [Nat.add_zero] at h0
  simp [Memory.readWord, wordOfBytes, List.range_succ, h0, h1, h2, h3, h4, h5, h6, h7]

theorem Memory.readWord_eq_none (m : Memory) (off a : Nat) (ha : a < 8) (h : Memory.read m (off + a) = none) :
    Memory.readWord m off = none := by
  rw [Memory.readWord, if_neg]
  intro hall
  have := List.all_eq_true.mp hall a (List.mem_range.mpr ha)
  simp [h] at this

/-- A word written to a byte region is read back. -/
theorem Memory.readWord_writeWord (m : Memory) (off : Nat) (v : Word) :
    Memory.readWord (Memory.writeWord m off v) off = some v := by
  rw [Memory.readWord_eq_some _ _ (byteOfWord v), wordOfBytes_byteOfWord]
  intro a ha
  rw [Memory.read_writeWord, if_pos (by omega), Nat.add_sub_cancel_left]

/-- What a word of a byte region reads as depends on its eight bytes alone. -/
theorem Memory.readWord_congr (m m' : Memory) (off : Nat)
    (h : ∀ a, a < 8 → Memory.read m (off + a) = Memory.read m' (off + a)) :
    Memory.readWord m off = Memory.readWord m' off := by
  have h0 := h 0 (by omega)
  have h1 := h 1 (by omega)
  have h2 := h 2 (by omega)
  have h3 := h 3 (by omega)
  have h4 := h 4 (by omega)
  have h5 := h 5 (by omega)
  have h6 := h 6 (by omega)
  have h7 := h 7 (by omega)
  simp only [Nat.add_zero] at h0
  simp [Memory.readWord, wordOfBytes, List.range_succ, h0, h1, h2, h3, h4, h5, h6, h7]

/-- A byte string is read when all its bytes are defined. -/
theorem Memory.readBytes_eq_some (m : Memory) (bs : List Byte) (off : Nat)
    (h : ∀ a (ha : a < bs.length), Memory.read m (off + a) = some bs[a]) :
    Memory.readBytes m off bs.length = some bs := by
  induction bs generalizing off with
  | nil => rfl
  | cons b bs ih =>
    have h0 := h 0 (by simp)
    have hs := ih (off + 1) fun a ha => by
      have := h (a + 1) (by simpa using ha)
      simpa [Nat.add_assoc, Nat.add_comm 1 a] using this
    simp only [Nat.add_zero, List.getElem_cons_zero] at h0
    simp [Memory.readBytes, h0, hs]

/-- A byte string with an undefined byte is not read. -/
theorem Memory.readBytes_eq_none (m : Memory) (n off a : Nat) (ha : a < n) (h : Memory.read m (off + a) = none) :
    Memory.readBytes m off n = none := by
  induction n generalizing off a with
  | zero => omega
  | succ n ih =>
    cases a with
    | zero =>
      simp only [Nat.add_zero] at h
      simp [Memory.readBytes, h]
    | succ a =>
      have := ih (off + 1) a (by omega) (by rw [← h]; congr 1; omega)
      simp [Memory.readBytes, this]

/-- What a byte string reads as depends on its own bytes alone. -/
theorem Memory.readBytes_congr (m m' : Memory) (n off : Nat)
    (h : ∀ a, a < n → Memory.read m (off + a) = Memory.read m' (off + a)) :
    Memory.readBytes m off n = Memory.readBytes m' off n := by
  induction n generalizing off with
  | zero => rfl
  | succ n ih =>
    have h0 := h 0 (by omega)
    simp only [Nat.add_zero] at h0
    have hs := ih (off + 1) fun a ha => by
      have := h (a + 1) (by omega)
      simpa [Nat.add_assoc, Nat.add_comm 1 a] using this
    simp [Memory.readBytes, h0, hs]

/-- A byte string read has the asked length. -/
theorem Memory.length_of_readBytes (m : Memory) (n off : Nat) (bs : List Byte)
    (h : Memory.readBytes m off n = some bs) : bs.length = n := by
  induction n generalizing off bs with
  | zero => simp_all [Memory.readBytes]
  | succ n ih =>
    simp only [Memory.readBytes] at h
    split at h
    · rename_i b bs' _ hb
      obtain rfl := Option.some.inj h
      simp [ih _ _ hb]
    · simp at h

end Sys2Proof.Machine
end

