-- ==== Sys2Proof/Laws/PerInstr.lean ====
section
/-! SUPPORT. Statements for all commands, one lemma per constructor. -/

namespace Sys2Proof.Laws.EncodedReservedBits

open Sys2Proof

/-- The word of a command has 0 in RSV1 and RSV2, and a nonzero COUNT only for STEP and ROUND (30_encoding.md R90). -/
def Statement (i : Instr) : Prop :=
  rsv1Field (encode i) = 0 ∧ rsv2Field (encode i) = 0 ∧
    (countField (encode i) ≠ 0 → opField (encode i) = 0x07 ∨ opField (encode i) = 0x08)

theorem statement_of_count_zero (i : Instr) (h : i.count = 0) : Statement i := by
  obtain ⟨_, h1, hc, h2⟩ := encode_fields i
  refine ⟨h1, h2, fun hn => absurd ?_ hn⟩
  rw [hc, h]
  rfl

theorem nop : Statement .nop := statement_of_count_zero _ rfl
theorem softReset : Statement .softReset := statement_of_count_zero _ rfl
theorem configure : Statement .configure := statement_of_count_zero _ rfl
theorem encodeNode : Statement .encodeNode := statement_of_count_zero _ rfl
theorem compress : Statement .compress := statement_of_count_zero _ rfl
theorem hash : Statement .hash := statement_of_count_zero _ rfl
theorem loadN : Statement .loadN := statement_of_count_zero _ rfl
theorem step (n : Nat) : Statement (.step n) :=
  ⟨(encode_fields _).2.1, (encode_fields _).2.2.2, fun _ => .inl (encode_fields _).1⟩
theorem round (n : Nat) : Statement (.round n) :=
  ⟨(encode_fields _).2.1, (encode_fields _).2.2.2, fun _ => .inr (encode_fields _).1⟩
theorem readCv : Statement .readCv := statement_of_count_zero _ rfl

end Sys2Proof.Laws.EncodedReservedBits
end

