-- ==== Sys2Proof/Laws/RegisterMap.lean ====
section
/-! SUPPORT. The register map (30_encoding.md R94), region by region: what stands at an offset, and which offsets are
mapped, read-only, or CMD. -/

namespace Sys2Proof.Machine

/-- The scalar registers. -/
theorem elementAt_scalar (off : Nat) (h : off < 0x090) : elementAt off = scalarElements[off / 8]? := if_pos h

theorem elementAt_gap1 (off : Nat) (h1 : 0x090 ≤ off) (h2 : off < 0x100) :
    elementAt off = none := by
  unfold elementAt
  iterate 1 rw [if_neg (by omega)]
  exact if_pos h2

theorem elementAt_key (off : Nat) (h1 : 0x100 ≤ off) (h2 : off < 0x140) :
    elementAt off = some (.key (off / 8 - 0x100 / 8)) := by
  unfold elementAt
  iterate 2 rw [if_neg (by omega)]
  exact if_pos h2

theorem elementAt_gap2 (off : Nat) (h1 : 0x140 ≤ off) (h2 : off < 0x200) :
    elementAt off = none := by
  unfold elementAt
  iterate 3 rw [if_neg (by omega)]
  exact if_pos h2

theorem elementAt_nBuf (off : Nat) (h1 : 0x200 ≤ off) (h2 : off < 0x4C8) :
    elementAt off = some (.nBuf (off / 8 - 0x200 / 8)) := by
  unfold elementAt
  iterate 4 rw [if_neg (by omega)]
  exact if_pos h2

theorem elementAt_gap3 (off : Nat) (h1 : 0x4C8 ≤ off) (h2 : off < 0x500) :
    elementAt off = none := by
  unfold elementAt
  iterate 5 rw [if_neg (by omega)]
  exact if_pos h2

theorem elementAt_cvOut (off : Nat) (h1 : 0x500 ≤ off) (h2 : off < 0x580) :
    elementAt off = some (.cvOut (off / 8 - 0x500 / 8)) := by
  unfold elementAt
  iterate 6 rw [if_neg (by omega)]
  exact if_pos h2

theorem elementAt_digest (off : Nat) (h1 : 0x580 ≤ off) (h2 : off < 0x5C0) :
    elementAt off = some (.digest (off / 8 - 0x580 / 8)) := by
  unfold elementAt
  iterate 7 rw [if_neg (by omega)]
  exact if_pos h2

theorem elementAt_gap4 (off : Nat) (h1 : 0x5C0 ≤ off) (h2 : off < 0x600) :
    elementAt off = none := by
  unfold elementAt
  iterate 8 rw [if_neg (by omega)]
  exact if_pos h2

theorem elementAt_w (off : Nat) (h1 : 0x600 ≤ off) (h2 : off < 0x8C8) :
    elementAt off = some (.w (off / 8 - 0x600 / 8)) := by
  unfold elementAt
  iterate 9 rw [if_neg (by omega)]
  exact if_pos h2

theorem elementAt_gap5 (off : Nat) (h1 : 0x8C8 ≤ off) (h2 : off < 0x10000) :
    elementAt off = none := by
  unfold elementAt
  iterate 10 rw [if_neg (by omega)]
  exact if_pos h2

theorem elementAt_msg (off : Nat) (h1 : 0x10000 ≤ off) (h2 : off < 0x10000 + Config.msgCapBytes) :
    elementAt off = some (.msg (off / 8 - 0x10000 / 8)) := by
  unfold elementAt
  iterate 11 rw [if_neg (by omega)]
  exact if_pos h2

theorem elementAt_gap6 (off : Nat) (h1 : 0x10000 + Config.msgCapBytes ≤ off) : elementAt off = none := by
  unfold elementAt
  iterate 12 rw [if_neg (by omega)]

/-! The word at each word offset of an array. -/

theorem elementAt_key_word (t : Nat) (h : t < 8) : elementAt (0x100 + 8 * t) = some (.key t) :=
  (elementAt_key _ (by omega) (by omega)).trans (congrArg (fun k => some (Element.key k)) (by omega))

theorem elementAt_nBuf_word (t : Nat) (h : t < 89) : elementAt (0x200 + 8 * t) = some (.nBuf t) :=
  (elementAt_nBuf _ (by omega) (by omega)).trans (congrArg (fun k => some (Element.nBuf k)) (by omega))

theorem elementAt_cvOut_word (t : Nat) (h : t < 16) : elementAt (0x500 + 8 * t) = some (.cvOut t) :=
  (elementAt_cvOut _ (by omega) (by omega)).trans (congrArg (fun k => some (Element.cvOut k)) (by omega))

theorem elementAt_digest_word (t : Nat) (h : t < 8) : elementAt (0x580 + 8 * t) = some (.digest t) :=
  (elementAt_digest _ (by omega) (by omega)).trans (congrArg (fun k => some (Element.digest k)) (by omega))

theorem elementAt_w_word (t : Nat) (h : t < 89) : elementAt (0x600 + 8 * t) = some (.w t) :=
  (elementAt_w _ (by omega) (by omega)).trans (congrArg (fun k => some (Element.w k)) (by omega))

theorem elementAt_msg_word (t : Nat) (h : 8 * t < Config.msgCapBytes) : elementAt (0x10000 + 8 * t) = some (.msg t) :=
  (elementAt_msg _ (by omega) (by omega)).trans (congrArg (fun k => some (Element.msg k)) (by omega))

/-- Every offset stands in one of the regions of R94, a scalar register among them, or is unmapped. -/
theorem elementAt_cases (off : Nat) :
    (∃ k, k < 18 ∧ off / 8 = k ∧ elementAt off = scalarElements[k]?) ∨
    (elementAt off = none ∧ ((0x090 ≤ off ∧ off < 0x100) ∨ (0x140 ≤ off ∧ off < 0x200) ∨ (0x4C8 ≤ off ∧ off < 0x500) ∨
      (0x5C0 ≤ off ∧ off < 0x600) ∨ (0x8C8 ≤ off ∧ off < 0x10000) ∨ 0x10000 + Config.msgCapBytes ≤ off)) ∨
    ((0x100 ≤ off ∧ off < 0x140) ∧ elementAt off = some (.key (off / 8 - 0x100 / 8))) ∨
    ((0x200 ≤ off ∧ off < 0x4C8) ∧ elementAt off = some (.nBuf (off / 8 - 0x200 / 8))) ∨
    ((0x500 ≤ off ∧ off < 0x580) ∧ elementAt off = some (.cvOut (off / 8 - 0x500 / 8))) ∨
    ((0x580 ≤ off ∧ off < 0x5C0) ∧ elementAt off = some (.digest (off / 8 - 0x580 / 8))) ∨
    ((0x600 ≤ off ∧ off < 0x8C8) ∧ elementAt off = some (.w (off / 8 - 0x600 / 8))) ∨
    ((0x10000 ≤ off ∧ off < 0x10000 + Config.msgCapBytes) ∧ elementAt off = some (.msg (off / 8 - 0x10000 / 8))) := by
  rcases Nat.lt_or_ge off 0x090 with h | h
  · exact .inl ⟨off / 8, by omega, rfl, elementAt_scalar off h⟩
  right
  rcases Nat.lt_or_ge off 0x100 with h1 | h1
  · exact .inl ⟨elementAt_gap1 off h h1, .inl ⟨h, h1⟩⟩
  rcases Nat.lt_or_ge off 0x140 with h2 | h2
  · exact .inr (.inl ⟨⟨h1, h2⟩, elementAt_key off h1 h2⟩)
  rcases Nat.lt_or_ge off 0x200 with h3 | h3
  · exact .inl ⟨elementAt_gap2 off h2 h3, .inr (.inl ⟨h2, h3⟩)⟩
  rcases Nat.lt_or_ge off 0x4C8 with h4 | h4
  · exact .inr (.inr (.inl ⟨⟨h3, h4⟩, elementAt_nBuf off h3 h4⟩))
  rcases Nat.lt_or_ge off 0x500 with h5 | h5
  · exact .inl ⟨elementAt_gap3 off h4 h5, .inr (.inr (.inl ⟨h4, h5⟩))⟩
  rcases Nat.lt_or_ge off 0x580 with h6 | h6
  · exact .inr (.inr (.inr (.inl ⟨⟨h5, h6⟩, elementAt_cvOut off h5 h6⟩)))
  rcases Nat.lt_or_ge off 0x5C0 with h7 | h7
  · exact .inr (.inr (.inr (.inr (.inl ⟨⟨h6, h7⟩, elementAt_digest off h6 h7⟩))))
  rcases Nat.lt_or_ge off 0x600 with h8 | h8
  · exact .inl ⟨elementAt_gap4 off h7 h8, .inr (.inr (.inr (.inl ⟨h7, h8⟩)))⟩
  rcases Nat.lt_or_ge off 0x8C8 with h9 | h9
  · exact .inr (.inr (.inr (.inr (.inr (.inl ⟨⟨h8, h9⟩, elementAt_w off h8 h9⟩)))))
  rcases Nat.lt_or_ge off 0x10000 with h10 | h10
  · exact .inl ⟨elementAt_gap5 off h9 h10, .inr (.inr (.inr (.inr (.inl ⟨h9, h10⟩))))⟩
  rcases Nat.lt_or_ge off (0x10000 + Config.msgCapBytes) with h11 | h11
  · exact .inr (.inr (.inr (.inr (.inr (.inr ⟨⟨h10, h11⟩, elementAt_msg off h10 h11⟩)))))
  · exact .inl ⟨elementAt_gap6 off h11, .inr (.inr (.inr (.inr (.inr h11))))⟩

/-- The unmapped offsets (20_memory.md R62). -/
theorem elementAt_eq_none_iff (off : Nat) : elementAt off = none ↔
    (0x090 ≤ off ∧ off < 0x100) ∨ (0x140 ≤ off ∧ off < 0x200) ∨ (0x4C8 ≤ off ∧ off < 0x500) ∨
      (0x5C0 ≤ off ∧ off < 0x600) ∨ (0x8C8 ≤ off ∧ off < 0x10000) ∨ 0x10000 + Config.msgCapBytes ≤ off := by
  rcases elementAt_cases off with ⟨k, hk, hd, he⟩ | ⟨he, h⟩ | ⟨h, he⟩ | ⟨h, he⟩ | ⟨h, he⟩ | ⟨h, he⟩ | ⟨h, he⟩ | ⟨h, he⟩
  · have : scalarElements[k]? ≠ none := fun h => by
      rw [List.getElem?_eq_none_iff] at h
      simp only [scalarElements, List.length_cons, List.length_nil] at h
      omega
    exact ⟨fun h => absurd (he ▸ h) this, fun h => by omega⟩
  · exact ⟨fun _ => h, fun _ => he⟩
  all_goals exact ⟨fun hn => absurd (he.symm.trans hn) (Option.some_ne_none _), fun h => by omega⟩

/-- The read-only offsets (20_memory.md R63). -/
theorem elementAt_readOnly_iff (off : Nat) : ((elementAt off).any fun e => e.access == .ro) = true ↔
    (0x008 ≤ off ∧ off < 0x010) ∨ (0x060 ≤ off ∧ off < 0x090) ∨ (0x500 ≤ off ∧ off < 0x5C0) ∨
      (0x600 ≤ off ∧ off < 0x8C8) := by
  rcases elementAt_cases off with ⟨k, hk, hd, he⟩ | ⟨he, h⟩ | ⟨h, he⟩ | ⟨h, he⟩ | ⟨h, he⟩ | ⟨h, he⟩ | ⟨h, he⟩ | ⟨h, he⟩ <;>
    rw [he]
  · have : (scalarElements[k]?.any fun e => e.access == .ro) = (decide (k = 1) || decide (12 ≤ k)) := by
      clear hd he
      interval_cases k <;> rfl
    rw [this, Bool.or_eq_true, decide_eq_true_iff, decide_eq_true_iff]
    omega
  · exact ⟨fun h => (Bool.false_ne_true h).elim, fun h => by omega⟩
  · exact ⟨fun h => (Bool.false_ne_true h).elim, fun h => by omega⟩
  · exact ⟨fun h => (Bool.false_ne_true h).elim, fun h => by omega⟩
  · exact ⟨fun _ => by omega, fun _ => rfl⟩
  · exact ⟨fun _ => by omega, fun _ => rfl⟩
  · exact ⟨fun _ => by omega, fun _ => rfl⟩
  · exact ⟨fun h => (Bool.false_ne_true h).elim, fun h => by omega⟩

/-- The offsets of CMD's eight bytes (20_memory.md R63). -/
theorem elementAt_eq_cmd_iff (off : Nat) : elementAt off = some .cmd ↔ off < 8 := by
  rcases elementAt_cases off with ⟨k, hk, hd, he⟩ | ⟨he, h⟩ | ⟨h, he⟩ | ⟨h, he⟩ | ⟨h, he⟩ | ⟨h, he⟩ | ⟨h, he⟩ | ⟨h, he⟩ <;>
    rw [he]
  · have : scalarElements[k]? = some .cmd ↔ k = 0 := by
      clear hd he
      interval_cases k <;> decide
    rw [this]
    omega
  all_goals exact ⟨fun h => by simp at h, fun h => by omega⟩

/-- A write that meets the condition of a model fault records it and changes FAULT alone (20_memory.md R61 to R64). -/
theorem hostWrite_of_faults (off width : Nat) (v : Word) (s : State) (h : writeFaults off width s ≠ []) :
    hostWrite off width v s = { s with fault := (hostWrite off width v s).fault } ∧
      ∀ f, f ∈ (hostWrite off width v s).fault ↔ f ∈ s.fault ∨ f ∈ writeFaults off width s := by
  rcases hostWrite_cases off width v s with ⟨h1, _⟩ | ⟨_, h2⟩
  · exact absurd h1 h
  · rw [h2]
    exact ⟨recordFaults_eq _ _, fun f => mem_recordFaults _ _ _⟩

/-- A read that meets the condition of a model fault records it and gives no value (20_memory.md R61 to R64, R70). -/
theorem hostRead_of_faults (off width : Nat) (s : State) (h : readFaults off width s ≠ []) :
    hostRead off width s = { noteRead none s with fault := (hostRead off width s).fault } ∧
      ∀ f, f ∈ (hostRead off width s).fault ↔ f ∈ s.fault ∨ f ∈ readFaults off width s := by
  rcases hostRead_cases off width s with ⟨h1, _⟩ | ⟨_, h2⟩
  · exact absurd h1 h
  · rw [h2]
    refine ⟨?_, fun f => mem_recordFaults _ _ _⟩
    rw [recordFaults_eq]
    rfl

/-- A word-wide aligned write with BUSY = 0 to a word that is not read-only stores it (20_memory.md R65). -/
theorem hostWrite_eq (off : Nat) (v : Word) (s : State) (e : Element) (he : elementAt off = some e)
    (ha : off % 8 = 0) (hb : s.status.busy = false) (hro : e.access ≠ .ro) :
    hostWrite off 8 v s = writeElement v s e := by
  simp [hostWrite, writeFaults, faultIf, accessMisaligned, he, ha, hb, hro]

/-- A word-wide aligned read with BUSY = 0 of a defined word gives its value (20_memory.md R65). -/
theorem hostRead_eq (off : Nat) (s : State) (e : Element) (v : Word) (he : elementAt off = some e)
    (ha : off % 8 = 0) (hb : s.status.busy = false) (hv : readElement s e = some v) :
    hostRead off 8 s = noteRead (some v) s := by
  have hcmd : e ≠ .cmd := fun h => by simp [h, readElement] at hv
  simp [hostRead, readFaults, faultIf, accessMisaligned, he, ha, hb, hv, hcmd, readValue]

/-- A word-wide aligned read with BUSY = 0 of an undefined word is F_UNDEFINED_READ alone (20_memory.md R70). -/
theorem hostRead_undefined (off : Nat) (s : State) (e : Element) (he : elementAt off = some e)
    (ha : off % 8 = 0) (hb : s.status.busy = false) (hw : e.access ≠ .wo) (hv : readElement s e = none) :
    hostRead off 8 s = noteRead none (recordFault .undefinedRead s) := by
  have hcmd : e ≠ .cmd := fun h => by simp [h, Element.access] at hw
  simp [hostRead, readFaults, faultIf, accessMisaligned, he, ha, hb, hv, hcmd, hw, recordFaults]

end Sys2Proof.Machine
end

