-- ==== Sys2Proof/Laws/Round.lean ====
section
/-! SUPPORT. The sequencer and the array form of the recurrence (40_round_function.md R125, R126, R132). -/

namespace Sys2Proof.Machine

/-- n sequencer steps are the n-fold iterate of one (R129). -/
theorem runSteps_eq_iterate (n : Nat) (x : Window) : runSteps n x = step1^[n] x := by
  induction n generalizing x with
  | zero => rfl
  | succ n ih => rw [runSteps, ih, Function.iterate_succ_apply]

/-- Steps add up. -/
theorem runSteps_add (m n : Nat) (x : Window) : runSteps (m + n) x = runSteps n (runSteps m x) := by
  simp only [runSteps_eq_iterate, ← Function.iterate_add_apply, Nat.add_comm m n]

/-- STEP_CTR after n steps. -/
theorem runSteps_stepCtr (n : Nat) (x : Window) : (runSteps n x).stepCtr = x.stepCtr + BitVec.ofNat 64 n := by
  induction n generalizing x with
  | zero => simp [runSteps]
  | succ n ih =>
    rw [runSteps, ih]
    simp only [step1]
    rw [BitVec.add_assoc]
    congr 1
    apply BitVec.eq_of_toNat_eq
    simp
    omega

/-- The working array has 89 words more than steps (R125). -/
@[simp] theorem workingArray_length (n : Words89) (k : Nat) : (workingArray n k).length = 89 + k := by
  induction k with
  | zero => simp [workingArray]
  | succ k ih => simp [workingArray, ih, Nat.add_assoc]

/-- The words of the array stay as the array grows (R125). -/
theorem workingArray_getD_succ (n : Words89) (k i : Nat) (h : i < 89 + k) :
    (workingArray n (k + 1)).getD i 0 = (workingArray n k).getD i 0 := by
  simp [workingArray, List.getD_eq_getElem?_getD, List.getElem?_append_left (show i < (workingArray n k).length by simpa)]

/-- The word a step appends (R125). -/
theorem workingArray_getD_last (n : Words89) (k : Nat) :
    (workingArray n (k + 1)).getD (89 + k) 0 = nextArrayWord (workingArray n k) := by
  simp [workingArray, List.getD_eq_getElem?_getD]

/-- A freshly loaded window holds the array after 0 steps (R128, R132). -/
theorem holdsArray_loadWindow (n : Words89) : HoldsArray (loadWindow n) n 0 :=
  ⟨fun j h => by simp [loadWindow, workingArray, List.getD_eq_getElem?_getD, h], rfl, rfl⟩

/-- A sequencer step takes the window to the array one step on (R126, R132). -/
theorem holdsArray_step1 (x : Window) (n : Words89) (k : Nat) (h : HoldsArray x n k) :
    HoldsArray (step1 x) n (k + 1) := by
  obtain ⟨hw, hc, hs⟩ := h
  have hmod : x.stepCtr.toNat % 16 = k % 16 := by
    rw [hc, BitVec.toNat_ofNat]
    omega
  have hmod' : (x.stepCtr.toNat + 1) % 16 = (k + 1) % 16 := by omega
  refine ⟨fun j hj => ?_, ?_, ?_⟩
  · by_cases hlast : j < 88
    · simp only [step1, stepFn, tabulate_getElem, hlast, dite_true]
      rw [hw (j + 1) (by omega), show k + 1 + j = k + (j + 1) by omega, workingArray_getD_succ _ _ _ (by omega)]
    · obtain rfl : j = 88 := by omega
      have shifts : ∀ y, mixShifts x.stepCtr.toNat y = mixShifts k y := fun y => by
        simp only [mixShifts, rightShift, leftShift, hmod]
      simp only [step1, stepFn, tabulate_getElem, Nat.lt_irrefl, dite_false]
      rw [show k + 1 + 88 = 89 + k by omega, workingArray_getD_last]
      simp only [nextArrayWord, stepWord, workingArray_length, shifts, hs]
      have h0 := hw 0 (by omega)
      have h22 := hw 22 (by omega)
      have h58 := hw 58 (by omega)
      have h68 := hw 68 (by omega)
      have h71 := hw 71 (by omega)
      have h72 := hw 72 (by omega)
      rw [h0, h22, h58, h68, h71, h72, show 89 + k - 89 = k by omega, show 89 + k - 17 = k + 72 by omega,
        show 89 + k - 18 = k + 71 by omega, show 89 + k - 21 = k + 68 by omega, show 89 + k - 31 = k + 58 by omega,
        show 89 + k - 67 = k + 22 by omega, Nat.add_zero]
  · simp only [step1, hc]
    apply BitVec.eq_of_toNat_eq
    simp
  · simp only [step1, hmod', hs]
    split
    · rw [show (k + 1) / 16 = k / 16 + 1 by omega]
      rfl
    · rw [show (k + 1) / 16 = k / 16 by omega]

/-- So do n sequencer steps (R132). -/
theorem holdsArray_runSteps (m : Nat) (x : Window) (n : Words89) (k : Nat) (h : HoldsArray x n k) :
    HoldsArray (runSteps m x) n (k + m) := by
  induction m generalizing x k with
  | zero => exact h
  | succ m ih =>
    rw [runSteps, show k + (m + 1) = k + 1 + m by omega]
    exact ih _ _ (holdsArray_step1 x n k h)

/-- The loop of R150, from a step number with the same place in its round, is the sequencer's (R152). -/
theorem compressLoop_eq (m k : Nat) (x : Window) (h : x.stepCtr.toNat % 16 = k % 16) :
    compressLoop m k x.w x.sReg = (runSteps m x).w := by
  induction m generalizing k x with
  | zero => rfl
  | succ m ih =>
    have hc : (step1 x).stepCtr.toNat % 16 = (k + 1) % 16 := by
      simp only [step1, BitVec.toNat_add]
      simp
      omega
    have hmod : (x.stepCtr.toNat + 1) % 16 = (k + 1) % 16 := by omega
    have shifts : stepFn x.w x.sReg k = stepFn x.w x.sReg x.stepCtr.toNat := by
      simp only [stepFn, stepWord, mixShifts, rightShift, leftShift, h]
    rw [compressLoop, runSteps, ← ih (k + 1) (step1 x) hc, shifts]
    simp only [step1, hmod]

/-- f_r(N) is W[73..88] after LOAD_N and 16·r steps (R150, R152). -/
theorem compressF_eq (r : Nat) (n : Words89) : compressF r n = lastWords (runSteps (16 * r) (loadWindow n)).w := by
  rw [compressF, show s0 = (loadWindow n).sReg from rfl]
  exact congrArg lastWords (compressLoop_eq (16 * r) 0 (loadWindow n) rfl)

end Sys2Proof.Machine
end

