-- ==== Sys2Proof/Laws/State.lean ====
section
/-! SUPPORT. One lemma per field of State for each named update of it. -/

namespace Sys2Proof.Machine

variable (s : State) (v : Word) (r : Option Word) (t : Nat) (moves : List HostMove)


/-! ### issueCommand -/

@[simp] theorem issueCommand_cfgD : (issueCommand v s).cfgD = s.cfgD := rfl
@[simp] theorem issueCommand_cfgKeylen : (issueCommand v s).cfgKeylen = s.cfgKeylen := rfl
@[simp] theorem issueCommand_cfgL : (issueCommand v s).cfgL = s.cfgL := rfl
@[simp] theorem issueCommand_cfgR : (issueCommand v s).cfgR = s.cfgR := rfl
@[simp] theorem issueCommand_rOverride : (issueCommand v s).rOverride = s.rOverride := rfl
@[simp] theorem issueCommand_msgLen : (issueCommand v s).msgLen = s.msgLen := rfl
@[simp] theorem issueCommand_encLevel : (issueCommand v s).encLevel = s.encLevel := rfl
@[simp] theorem issueCommand_encIndex : (issueCommand v s).encIndex = s.encIndex := rfl
@[simp] theorem issueCommand_encZ : (issueCommand v s).encZ = s.encZ := rfl
@[simp] theorem issueCommand_encP : (issueCommand v s).encP = s.encP := rfl
@[simp] theorem issueCommand_mem : (issueCommand v s).mem = s.mem := rfl
@[simp] theorem issueCommand_status : (issueCommand v s).status = s.status.issued := rfl
@[simp] theorem issueCommand_pending : (issueCommand v s).pending = ⟨v, true⟩ := rfl
@[simp] theorem issueCommand_pb : (issueCommand v s).pb = s.pb := rfl
@[simp] theorem issueCommand_nBuf : (issueCommand v s).nBuf = s.nBuf := rfl
@[simp] theorem issueCommand_win : (issueCommand v s).win = s.win := rfl
@[simp] theorem issueCommand_cvOut : (issueCommand v s).cvOut = s.cvOut := rfl
@[simp] theorem issueCommand_digest : (issueCommand v s).digest = s.digest := rfl
@[simp] theorem issueCommand_acc : (issueCommand v s).acc = s.acc := rfl
@[simp] theorem issueCommand_fault : (issueCommand v s).fault = s.fault := rfl
@[simp] theorem issueCommand_freeIndex : (issueCommand v s).freeIndex = s.freeIndex := rfl
@[simp] theorem issueCommand_host : (issueCommand v s).host = s.host := rfl

/-! ### State.withMoves -/

@[simp] theorem State.withMoves_cfgD : (s.withMoves moves).cfgD = s.cfgD := rfl
@[simp] theorem State.withMoves_cfgKeylen : (s.withMoves moves).cfgKeylen = s.cfgKeylen := rfl
@[simp] theorem State.withMoves_cfgL : (s.withMoves moves).cfgL = s.cfgL := rfl
@[simp] theorem State.withMoves_cfgR : (s.withMoves moves).cfgR = s.cfgR := rfl
@[simp] theorem State.withMoves_rOverride : (s.withMoves moves).rOverride = s.rOverride := rfl
@[simp] theorem State.withMoves_msgLen : (s.withMoves moves).msgLen = s.msgLen := rfl
@[simp] theorem State.withMoves_encLevel : (s.withMoves moves).encLevel = s.encLevel := rfl
@[simp] theorem State.withMoves_encIndex : (s.withMoves moves).encIndex = s.encIndex := rfl
@[simp] theorem State.withMoves_encZ : (s.withMoves moves).encZ = s.encZ := rfl
@[simp] theorem State.withMoves_encP : (s.withMoves moves).encP = s.encP := rfl
@[simp] theorem State.withMoves_mem : (s.withMoves moves).mem = s.mem := rfl
@[simp] theorem State.withMoves_status : (s.withMoves moves).status = s.status := rfl
@[simp] theorem State.withMoves_pending : (s.withMoves moves).pending = s.pending := rfl
@[simp] theorem State.withMoves_pb : (s.withMoves moves).pb = s.pb := rfl
@[simp] theorem State.withMoves_nBuf : (s.withMoves moves).nBuf = s.nBuf := rfl
@[simp] theorem State.withMoves_win : (s.withMoves moves).win = s.win := rfl
@[simp] theorem State.withMoves_cvOut : (s.withMoves moves).cvOut = s.cvOut := rfl
@[simp] theorem State.withMoves_digest : (s.withMoves moves).digest = s.digest := rfl
@[simp] theorem State.withMoves_acc : (s.withMoves moves).acc = s.acc := rfl
@[simp] theorem State.withMoves_fault : (s.withMoves moves).fault = s.fault := rfl
@[simp] theorem State.withMoves_freeIndex : (s.withMoves moves).freeIndex = s.freeIndex := rfl
@[simp] theorem State.withMoves_host : (s.withMoves moves).host = { s.host with moves := moves } := rfl

/-! ### noteRead -/

@[simp] theorem noteRead_cfgD : (noteRead r s).cfgD = s.cfgD := rfl
@[simp] theorem noteRead_cfgKeylen : (noteRead r s).cfgKeylen = s.cfgKeylen := rfl
@[simp] theorem noteRead_cfgL : (noteRead r s).cfgL = s.cfgL := rfl
@[simp] theorem noteRead_cfgR : (noteRead r s).cfgR = s.cfgR := rfl
@[simp] theorem noteRead_rOverride : (noteRead r s).rOverride = s.rOverride := rfl
@[simp] theorem noteRead_msgLen : (noteRead r s).msgLen = s.msgLen := rfl
@[simp] theorem noteRead_encLevel : (noteRead r s).encLevel = s.encLevel := rfl
@[simp] theorem noteRead_encIndex : (noteRead r s).encIndex = s.encIndex := rfl
@[simp] theorem noteRead_encZ : (noteRead r s).encZ = s.encZ := rfl
@[simp] theorem noteRead_encP : (noteRead r s).encP = s.encP := rfl
@[simp] theorem noteRead_mem : (noteRead r s).mem = s.mem := rfl
@[simp] theorem noteRead_status : (noteRead r s).status = s.status := rfl
@[simp] theorem noteRead_pending : (noteRead r s).pending = s.pending := rfl
@[simp] theorem noteRead_pb : (noteRead r s).pb = s.pb := rfl
@[simp] theorem noteRead_nBuf : (noteRead r s).nBuf = s.nBuf := rfl
@[simp] theorem noteRead_win : (noteRead r s).win = s.win := rfl
@[simp] theorem noteRead_cvOut : (noteRead r s).cvOut = s.cvOut := rfl
@[simp] theorem noteRead_digest : (noteRead r s).digest = s.digest := rfl
@[simp] theorem noteRead_acc : (noteRead r s).acc = s.acc := rfl
@[simp] theorem noteRead_fault : (noteRead r s).fault = s.fault := rfl
@[simp] theorem noteRead_freeIndex : (noteRead r s).freeIndex = s.freeIndex := rfl
@[simp] theorem noteRead_host : (noteRead r s).host = { s.host with reads := s.host.reads ++ [r] } := rfl

/-! ### writeNBuf -/

@[simp] theorem writeNBuf_cfgD : (writeNBuf t v s).cfgD = s.cfgD := rfl
@[simp] theorem writeNBuf_cfgKeylen : (writeNBuf t v s).cfgKeylen = s.cfgKeylen := rfl
@[simp] theorem writeNBuf_cfgL : (writeNBuf t v s).cfgL = s.cfgL := rfl
@[simp] theorem writeNBuf_cfgR : (writeNBuf t v s).cfgR = s.cfgR := rfl
@[simp] theorem writeNBuf_rOverride : (writeNBuf t v s).rOverride = s.rOverride := rfl
@[simp] theorem writeNBuf_msgLen : (writeNBuf t v s).msgLen = s.msgLen := rfl
@[simp] theorem writeNBuf_encLevel : (writeNBuf t v s).encLevel = s.encLevel := rfl
@[simp] theorem writeNBuf_encIndex : (writeNBuf t v s).encIndex = s.encIndex := rfl
@[simp] theorem writeNBuf_encZ : (writeNBuf t v s).encZ = s.encZ := rfl
@[simp] theorem writeNBuf_encP : (writeNBuf t v s).encP = s.encP := rfl
@[simp] theorem writeNBuf_mem : (writeNBuf t v s).mem = s.mem := rfl
@[simp] theorem writeNBuf_status : (writeNBuf t v s).status = s.status := rfl
@[simp] theorem writeNBuf_pending : (writeNBuf t v s).pending = s.pending := rfl
@[simp] theorem writeNBuf_pb : (writeNBuf t v s).pb = s.pb := rfl
@[simp] theorem writeNBuf_nBuf : (writeNBuf t v s).nBuf = tabulate fun j => if j.val = t then ⟨v, true⟩ else s.nBuf[j] := rfl
@[simp] theorem writeNBuf_win : (writeNBuf t v s).win = s.win := rfl
@[simp] theorem writeNBuf_cvOut : (writeNBuf t v s).cvOut = s.cvOut := rfl
@[simp] theorem writeNBuf_digest : (writeNBuf t v s).digest = s.digest := rfl
@[simp] theorem writeNBuf_acc : (writeNBuf t v s).acc = s.acc := rfl
@[simp] theorem writeNBuf_fault : (writeNBuf t v s).fault = s.fault := rfl
@[simp] theorem writeNBuf_freeIndex : (writeNBuf t v s).freeIndex = s.freeIndex := rfl
@[simp] theorem writeNBuf_host : (writeNBuf t v s).host = s.host := rfl

/-! ### resetBlock -/

@[simp] theorem resetBlock_cfgD : (resetBlock s).cfgD = 0 := rfl
@[simp] theorem resetBlock_cfgKeylen : (resetBlock s).cfgKeylen = 0 := rfl
@[simp] theorem resetBlock_cfgL : (resetBlock s).cfgL = 64 := rfl
@[simp] theorem resetBlock_cfgR : (resetBlock s).cfgR = 0 := rfl
@[simp] theorem resetBlock_rOverride : (resetBlock s).rOverride = false := rfl
@[simp] theorem resetBlock_msgLen : (resetBlock s).msgLen = 0 := rfl
@[simp] theorem resetBlock_encLevel : (resetBlock s).encLevel = 0 := rfl
@[simp] theorem resetBlock_encIndex : (resetBlock s).encIndex = 0 := rfl
@[simp] theorem resetBlock_encZ : (resetBlock s).encZ = 0 := rfl
@[simp] theorem resetBlock_encP : (resetBlock s).encP = 0 := rfl
@[simp] theorem resetBlock_mem : (resetBlock s).mem = [] := rfl
@[simp] theorem resetBlock_status : (resetBlock s).status = Status.reset := rfl
@[simp] theorem resetBlock_pending : (resetBlock s).pending = Elem.undef := rfl
@[simp] theorem resetBlock_pb : (resetBlock s).pb = State.reset.pb := rfl
@[simp] theorem resetBlock_nBuf : (resetBlock s).nBuf = State.reset.nBuf := rfl
@[simp] theorem resetBlock_win : (resetBlock s).win = State.reset.win := rfl
@[simp] theorem resetBlock_cvOut : (resetBlock s).cvOut = State.reset.cvOut := rfl
@[simp] theorem resetBlock_digest : (resetBlock s).digest = State.reset.digest := rfl
@[simp] theorem resetBlock_acc : (resetBlock s).acc = State.reset.acc := rfl
@[simp] theorem resetBlock_fault : (resetBlock s).fault = s.fault := rfl
@[simp] theorem resetBlock_freeIndex : (resetBlock s).freeIndex = s.freeIndex := rfl
@[simp] theorem resetBlock_host : (resetBlock s).host = s.host := rfl

/-! ### placeCommand -/

@[simp] theorem placeCommand_cfgD : (placeCommand v s).cfgD = s.cfgD := rfl
@[simp] theorem placeCommand_cfgKeylen : (placeCommand v s).cfgKeylen = s.cfgKeylen := rfl
@[simp] theorem placeCommand_cfgL : (placeCommand v s).cfgL = s.cfgL := rfl
@[simp] theorem placeCommand_cfgR : (placeCommand v s).cfgR = s.cfgR := rfl
@[simp] theorem placeCommand_rOverride : (placeCommand v s).rOverride = s.rOverride := rfl
@[simp] theorem placeCommand_msgLen : (placeCommand v s).msgLen = s.msgLen := rfl
@[simp] theorem placeCommand_encLevel : (placeCommand v s).encLevel = s.encLevel := rfl
@[simp] theorem placeCommand_encIndex : (placeCommand v s).encIndex = s.encIndex := rfl
@[simp] theorem placeCommand_encZ : (placeCommand v s).encZ = s.encZ := rfl
@[simp] theorem placeCommand_encP : (placeCommand v s).encP = s.encP := rfl
@[simp] theorem placeCommand_mem : (placeCommand v s).mem = s.mem := rfl
@[simp] theorem placeCommand_status : (placeCommand v s).status = { s.status with busy := true } := rfl
@[simp] theorem placeCommand_pending : (placeCommand v s).pending = ⟨v, true⟩ := rfl
@[simp] theorem placeCommand_pb : (placeCommand v s).pb = s.pb := rfl
@[simp] theorem placeCommand_nBuf : (placeCommand v s).nBuf = s.nBuf := rfl
@[simp] theorem placeCommand_win : (placeCommand v s).win = s.win := rfl
@[simp] theorem placeCommand_cvOut : (placeCommand v s).cvOut = s.cvOut := rfl
@[simp] theorem placeCommand_digest : (placeCommand v s).digest = s.digest := rfl
@[simp] theorem placeCommand_acc : (placeCommand v s).acc = s.acc := rfl
@[simp] theorem placeCommand_fault : (placeCommand v s).fault = [] := rfl
@[simp] theorem placeCommand_freeIndex : (placeCommand v s).freeIndex = s.freeIndex := rfl
@[simp] theorem placeCommand_host : (placeCommand v s).host = { s.host with moves := .coreTurn :: s.host.moves } := rfl

end Sys2Proof.Machine
end

