-- ==== Sys2Proof/Laws/Step.lean ====
section
/-! SUPPORT. What one step can do (20_memory.md R72, R74): a move outside the core, the core's command, or nothing. -/

namespace Sys2Proof.Machine

/-- Giving the schedule its own moves changes nothing. -/
theorem State.withMoves_self (s : State) : s.withMoves s.host.moves = s := rfl

/-- The core has its step exactly when BUSY = 1 and FAULT is empty (20_memory.md R74). -/
theorem coreEnabled_iff (s : State) : coreEnabled s = true ↔ s.status.busy = true ∧ s.fault = [] := by
  simp [coreEnabled, State.faultFree]

/-- The core's step: the command PENDING decodes to, or ILLEGAL_CMD (30_encoding.md R93, R98). -/
def CoreStep (u : State) (o : Host.Outcome State Fault Refusal) : Prop :=
  (∃ i, decode u.pending.value = .ok i ∧ o = exec i u) ∨
    (∃ e, decode u.pending.value = .error e ∧ o = raiseError .illegalCmd u)

theorem coreStep_fetch (u : State) : CoreStep u (match fetch u with | some i => exec i u | none => illegalCommand u) := by
  unfold CoreStep fetch
  cases decode u.pending.value with
  | error e => exact .inr ⟨e, rfl, rfl⟩
  | ok i => exact .inl ⟨i, rfl, rfl⟩

/-- What a step that ends in a next state has done. -/
theorem step_next_cases (s t : State) (h : step s = .next t) :
    (∃ off width v rest, s.host.moves = .write off width v :: rest ∧ t = hostWrite off width v (s.withMoves rest)) ∨
    (∃ off width rest, s.host.moves = .read off width :: rest ∧ t = hostRead off width (s.withMoves rest)) ∨
    (∃ rest, s.host.moves = .wait :: rest ∧ t = waitTurn (s.withMoves rest)) ∨
    (∃ rest, s.host.moves = .expectOk :: rest ∧ t = expectOk (s.withMoves rest)) ∨
    (∃ code rest, s.host.moves = .expectErr code :: rest ∧ t = expectErr code (s.withMoves rest)) ∨
    (∃ rest, s.host.moves = .reset :: rest ∧ s.status.busy = false ∧ t = resetBlock (s.withMoves rest)) ∨
    (∃ rest, s.host.moves = .coreTurn :: rest ∧ (s.status.busy = false ∨ s.fault ≠ []) ∧ t = s.withMoves rest) ∨
    (s.host.moves = [] ∧ s.status.busy = false ∧ s.fault = [] ∧ t = s) ∨
    (∃ rest, (s.host.moves = .coreTurn :: rest ∨ (s.host.moves = [] ∧ rest = [])) ∧ s.status.busy = true ∧
      s.fault = [] ∧ CoreStep (s.withMoves rest) (.next t)) := by
  unfold step at h
  have core : ∀ u o, (match Turn.core u with
      | .over o => o
      | .core t => match fetch t with | some i => exec i t | none => illegalCommand t) = o → CoreStep u o := by
    rintro u o rfl
    exact coreStep_fetch u
  cases hm : s.host.moves with
  | nil =>
    simp only [nextTurn, hm, restTurn] at h
    by_cases hf : s.faultFree
    · rw [if_neg (by simp [hf])] at h
      have hf' : s.fault = [] := by simpa [State.faultFree] using hf
      by_cases hb : s.status.busy
      · rw [if_pos hb] at h
        iterate 8 right
        refine ⟨[], .inr ⟨rfl, rfl⟩, hb, hf', ?_⟩
        rw [← hm, State.withMoves_self]
        exact core s _ h
      · rw [if_neg hb] at h
        iterate 7 right
        left
        exact ⟨rfl, by simpa using hb, hf', (Host.Outcome.next.inj h).symm⟩
    · rw [if_pos (by simp [hf])] at h
      simp at h
  | cons m rest =>
    simp only [nextTurn, hm] at h
    cases m with
    | write off width v => exact .inl ⟨off, width, v, rest, rfl, (Host.Outcome.next.inj h).symm⟩
    | read off width => exact .inr (.inl ⟨off, width, rest, rfl, (Host.Outcome.next.inj h).symm⟩)
    | wait => exact .inr (.inr (.inl ⟨rest, rfl, (Host.Outcome.next.inj h).symm⟩))
    | expectOk => exact .inr (.inr (.inr (.inl ⟨rest, rfl, (Host.Outcome.next.inj h).symm⟩)))
    | expectErr code => exact .inr (.inr (.inr (.inr (.inl ⟨code, rest, rfl, (Host.Outcome.next.inj h).symm⟩))))
    | reset =>
      simp only [makeMove] at h
      by_cases hb : (s.withMoves rest).status.busy = true
      · rw [if_pos hb] at h
        simp at h
      · rw [if_neg hb] at h
        iterate 5 right
        left
        exact ⟨rest, rfl, by simpa using hb, (Host.Outcome.next.inj h).symm⟩
    | coreTurn =>
      simp only [makeMove] at h
      by_cases he : coreEnabled (s.withMoves rest) = true
      · have he' := (coreEnabled_iff _).mp he
        rw [if_pos he] at h
        iterate 8 right
        exact ⟨rest, .inl rfl, he'.1, he'.2, core _ _ h⟩
      · rw [if_neg he] at h
        iterate 6 right
        left
        refine ⟨rest, rfl, ?_, (Host.Outcome.next.inj h).symm⟩
        rw [coreEnabled_iff] at he
        by_cases hb : s.status.busy = true
        · exact .inr fun hf => he ⟨hb, hf⟩
        · exact .inl (by simpa using hb)

end Sys2Proof.Machine
end

