-- ==== Sys2Proof/Tests/Slice0.lean ====
section
/-! SUPPORT. Tests on small states, with results from 95_test_vectors.md, and for each statement with hypotheses a witness
that meets them. -/

namespace Sys2Proof.Tests

open Sys2Proof.Machine

/-! ## Well-formedness -/

/-- COUNT has 16 bits (30_encoding.md R91). -/
theorem test_step_count_too_large : (Instr.step 65536).wellFormed = false := by decide
theorem test_round_count_too_large : (Instr.round 65536).wellFormed = false := by decide
theorem test_largest_counts_fit : (Instr.step 65535).wellFormed = true ∧ (Instr.round 65535).wellFormed = true := by
  decide

/-! ## Decoding: each word is written out field by field from 30_encoding.md R90 and R92 (RSV2, COUNT, RSV1, OP) -/

theorem test_decode_nop : decode (0#32 ++ 0#16 ++ 0#8 ++ 0b00000000#8) = .ok .nop := by decide
theorem test_decode_softReset : decode (0#32 ++ 0#16 ++ 0#8 ++ 0b00000001#8) = .ok .softReset := by decide
theorem test_decode_configure : decode (0#32 ++ 0#16 ++ 0#8 ++ 0b00000010#8) = .ok .configure := by decide
theorem test_decode_encodeNode : decode (0#32 ++ 0#16 ++ 0#8 ++ 0b00000011#8) = .ok .encodeNode := by decide
theorem test_decode_compress : decode (0#32 ++ 0#16 ++ 0#8 ++ 0b00000100#8) = .ok .compress := by decide
theorem test_decode_hash : decode (0#32 ++ 0#16 ++ 0#8 ++ 0b00000101#8) = .ok .hash := by decide
theorem test_decode_loadN : decode (0#32 ++ 0#16 ++ 0#8 ++ 0b00000110#8) = .ok .loadN := by decide
theorem test_decode_step : decode (0#32 ++ 0x8001#16 ++ 0#8 ++ 0b00000111#8) = .ok (.step 32769) := by decide
theorem test_decode_round : decode (0#32 ++ 0x0067#16 ++ 0#8 ++ 0b00001000#8) = .ok (.round 103) := by decide
theorem test_decode_readCv : decode (0#32 ++ 0#16 ++ 0#8 ++ 0b00001001#8) = .ok .readCv := by decide

/-- The three illegal cases of R98, the words of 95_test_vectors.md section 7, and one bit of RSV2. -/
theorem test_decode_unassigned : decode 0xff = .error .unassignedOp := by decide
theorem test_decode_first_unassigned : decode 0x0a = .error .unassignedOp := by decide
theorem test_decode_count_on_nop : decode 0x10000 = .error .countNonzero := by decide
theorem test_decode_rsv1 : decode 0x107 = .error .reservedNonzero := by decide
theorem test_decode_rsv2 : decode 0x8000000000000008 = .error .reservedNonzero := by decide

/-- The command words of 95_test_vectors.md section 9. -/
theorem test_encode_step : encode (.step 15) = 0x00000000000f0007 := by decide
theorem test_encode_round : encode (.round 103) = 0x0000000000670008 := by decide
theorem test_decode_table_word : decodeTableWord 64 0x670008 = some (.round 103) := by decide

/-! ## States for the tests -/

/-- A field of the next state. -/
def after {α : Type} (o : Host.Outcome State Fault Refusal) (f : State → α) : Option α :=
  match o with
  | .next s => some (f s)
  | .fault _ => none
  | .refused _ => none

/-- The parameter block of CONFIGURE with d = 256, no key and L = 64, with r rounds. -/
def params (r : Word) : ParamBlock := { d := 256, keylen := 0, l := 64, r := r, k := Vector.replicate 8 0 }

/-- That parameter block latched. -/
def configured (r : Word) : State :=
  { State.reset with pb := params r, status := { Status.reset with pbValid := true } }

/-- N_BUF all zero. -/
def zeroInput (s : State) : State := { s with nBuf := Vector.replicate 89 ⟨0, true⟩ }

/-- The window after LOAD_N of an all-zero N_BUF. -/
def zeroWindow (s : State) : State :=
  { s with win := loadWindow (Vector.replicate 89 0), status := { s.status with winValid := true } }

/-! ## One step each, with the values of 95_test_vectors.md -/

/-- Section 7. -/
theorem test_nop : after (exec .nop State.reset) (fun t => t.status.word) = some 0x2 := by decide +kernel

/-- Section 7; CFG_L returns to 64 (45_control.md R261). -/
theorem test_softReset : after (exec .softReset { configured 104 with cfgL := 3 }) (fun t => (t.status.word, t.cfgL)) =
    some (0x2, 64) := by decide +kernel

/-- Section 4 and section 7. -/
theorem test_configure : after (exec .configure { State.reset with cfgD := 256 }) (fun t => (t.pb.r, t.status.word)) =
    some (104, 0x10002) := by decide +kernel

/-- Section 4, the last row of the CONFIGURE table: the first error in order. -/
theorem test_configure_first_error :
    after (exec .configure { State.reset with cfgD := 0, cfgKeylen := 65, cfgL := 65, cfgR := 256, rOverride := true })
      (fun t => t.status.word) = some 0x106 := by decide +kernel

/-- Section 4: KEY word 0 = 0x6162636465666768 with keylen 3. -/
theorem test_configure_key :
    after (exec .configure
        { State.reset with cfgD := 64, cfgKeylen := 3, mem := Memory.writeWord [] 0x100 0x6162636465666768 })
      (fun t => (t.pb.k[0], t.pb.r)) = some (0x6162630000000000, 80) := by decide +kernel

/-- Section 4: node (1, 0) with z = 1 and p = 4096. -/
theorem test_encodeNode :
    after (exec .encodeNode { configured 104 with encLevel := 1, encIndex := 0, encZ := 1, encP := 4096 })
      (fun t => (t.nBuf[23], t.nBuf[24], t.nBuf[25].defined)) =
      some (⟨0x0100000000000000, true⟩, ⟨0x0068401100000100, true⟩, false) := by decide +kernel

/-- Section 9, P4: ENC_P = 4097. -/
theorem test_encodeNode_range : after (exec .encodeNode { configured 255 with encP := 4097 }) (fun t => t.status.word) =
    some 0x10906 := by decide +kernel

/-- Section 3, the all-zero input with r = 1, and its STATUS. -/
theorem test_compress : after (exec .compress (zeroInput (configured 1)))
    (fun t => (t.cvOut[0], t.cvOut[15], t.status.word)) =
    some (0x194ebb349d71471c, 0x478df0ec797df153, 0xd0002) := by decide +kernel

/-- Section 3, any input with r = 0. -/
theorem test_compress_zero_rounds :
    after (exec .compress { configured 0 with nBuf := tabulate fun j => ⟨BitVec.ofNat 64 j.val, true⟩ })
      (fun t => (t.cvOut[0], t.cvOut[15])) = some (73, 88) := by decide +kernel

/-- Section 5: "abc" with override r = 1, whose digest is the last four words of the root. -/
theorem test_hash_root : ((accRun (params 1) [0x61, 0x62, 0x63]).2[12], (accRun (params 1) [0x61, 0x62, 0x63]).2[15]) =
    (0x9ea7a2d571275633, 0x478df0ec797df153) := by decide +kernel

/-- Section 7. -/
theorem test_hash_not_configured : after (exec .hash State.reset) (fun t => t.status.word) = some 0x706 := by
  decide +kernel

/-- Section 6: the partial digest of d = 12 from the last words of section 5's "abc" root, 0x...5d7. -/
theorem test_digest_left_justified :
    (digestWords (tabulate fun j => if j.val = 15 then 0xFFFFFFFFFFFFF5D7 else 0) 12)[0] = 0x5d70000000000000 := by
  decide +kernel

/-- Section 2. -/
theorem test_loadN : after (exec .loadN (zeroInput State.reset)) (fun t => (t.win.sReg, t.win.stepCtr, t.win.w[88])) =
    some (0x0123456789abcdef, 0, 0) := by decide +kernel

/-- Section 2: N_BUF never written. -/
theorem test_loadN_undefined : after (exec .loadN State.reset) (fun t => (t.fault, t.status.winValid)) =
    some ([.undefinedInput], false) := by decide +kernel

/-- Section 2. -/
theorem test_step : after (exec (.step 1) (zeroWindow State.reset))
    (fun t => (t.win.w[88], t.win.w[87], t.win.stepCtr, t.win.sReg)) =
    some (0x194ebb349d71471c, 0, 1, 0x0123456789abcdef) := by decide +kernel

/-- Section 2: W[j] = j. -/
theorem test_step_taps :
    after (exec (.step 1)
        { zeroWindow State.reset with win := loadWindow (tabulate fun j => BitVec.ofNat 64 j.val) })
      (fun t => t.win.w[88]) = some 0x194ebb349d71b702 := by decide +kernel

/-- Section 2: ROUND 1. -/
theorem test_round : after (exec (.round 1) (zeroWindow State.reset))
    (fun t => (t.win.w[73], t.win.w[88], t.win.stepCtr, t.win.sReg)) =
    some (0x194ebb349d71471c, 0x478df0ec797df153, 16, 0x0347cace1376567e) := by decide +kernel

/-- Section 2: the unaligned ROUND 1, from the window after one step. -/
theorem test_round_unaligned :
    after (exec (.round 1) { zeroWindow State.reset with win := step1 (loadWindow (Vector.replicate 89 0)) })
      (fun t => (t.win.w[88], t.win.stepCtr, t.win.sReg)) =
      some (0x3b9efe3b34add3eb, 17, 0x0347cace1376567e) := by decide +kernel

/-- Section 2. -/
theorem test_readCv : after (exec .readCv (zeroWindow State.reset)) (fun t => (t.cvOut[0], t.status.word)) =
    some (0, 0xc0002) := by decide +kernel

/-- Section 2. -/
theorem test_readCv_no_window : after (exec .readCv State.reset) (fun t => t.status.word) = some 0xa06 := by
  decide +kernel

/-! ## The step, the host port and the notation -/

/-- Section 7: CMD = 0xff after reset. -/
theorem test_step_illegal_word : after (step (State.reset.withFetchWord 64 0xff)) (fun t => t.status.word) = some 0x606 := by
  decide +kernel

/-- Section 7: STEP 1 after reset. -/
theorem test_step_runs_the_word : after (step (State.reset.withFetchWord 64 0x10007)) (fun t => t.status.word) =
    some 0xa06 := by decide +kernel

/-- Section 7: just after a CMD write. -/
theorem test_cmd_write : (hostWrite 0x000 8 0x2 (configured 104)).status.word = 0x10001 := by decide +kernel

/-- Section 7, the model faults. -/
theorem test_read_cmd : (hostRead 0x000 8 State.reset).fault = [.readWo] := by decide +kernel
theorem test_write_status : (hostWrite 0x008 8 1 State.reset).fault = [.writeRo] := by decide +kernel
theorem test_read_unmapped : (hostRead 0x090 8 State.reset).fault = [.unmapped] := by decide +kernel
theorem test_read_misaligned : (hostRead 0x00C 8 State.reset).fault = [.misaligned] := by decide +kernel
theorem test_read_undefined : (hostRead 0x580 8 State.reset).fault = [.undefinedRead] := by decide +kernel
theorem test_busy_write :
    (hostWrite 0x010 8 5 { State.reset with status := { Status.reset with busy := true } }).fault = [.busyAccess] := by
  decide +kernel

/-- Section 8: KEY word 0 = 0x6162636465666768 defines KB[0] = 'a' and KB[7] = 'h'. -/
theorem test_key_bytes :
    (Memory.read (hostWrite 0x100 8 0x6162636465666768 State.reset).mem 0x100,
      Memory.read (hostWrite 0x100 8 0x6162636465666768 State.reset).mem 0x107) = (some 0x61, some 0x68) := by
  decide +kernel

/-- P4 of section 9: EXPECT_ERR 0x01 passes on STATUS = 0x106, and EXPECT_OK fails there. -/
theorem test_expect :
    ((expectErr 0x01 { State.reset with status := { Status.reset with err := true, errcode := .cfgDigestLen } }).host.failed,
      (expectOk { State.reset with status := { Status.reset with err := true, errcode := .cfgDigestLen } }).host.failed) =
      (false, true) := by decide +kernel

/-! ## Witnesses: a state and operands that meet the hypotheses of each statement that has any, for each clause -/

/-- A command word latched, the core to move. -/
def pendingWord (v : Word) (moves : List HostMove) : State :=
  { State.reset with
    pending := ⟨v, true⟩
    status := { Status.reset with busy := true }
    host := { State.reset.host with moves := moves } }

/-- The reset state with moves to make. -/
def withHost (moves : List HostMove) : State := State.reset.withMoves moves

/-- A state whose configuration is legal: d = 256, keylen 2, and the two key bytes 0x61 and 0x62. -/
def legal : State := { State.reset with cfgD := 256, cfgKeylen := 2, mem := [(0x100, 0x61), (0x101, 0x62)] }

theorem cap_eight : 8 ≤ Config.msgCapBytes := Config.msgCapBytes_legal.2.1

theorem witness_DecodeOfEncodeIsTheCommand :
    (Instr.step 65535).wellFormed = true ∧ (Instr.round 0).wellFormed = true ∧ Instr.readCv.wellFormed = true := by decide

theorem witness_EncodeOfDecodeIsTheWord :
    decode 0xffff0007 = .ok (.step 65535) ∧ decode 0x8 = .ok (.round 0) ∧ decode 0x9 = .ok .readCv := by decide

theorem witness_DecodeRefusesExactlyTheIllegalWords :
    (decode 0x0a = .error .unassignedOp ∧ decode 0xff = .error .unassignedOp) ∧
    (decode 0x8000 = .error .reservedNonzero ∧ decode 0x100000000 = .error .reservedNonzero) ∧
    (decode 0x10009 = .error .countNonzero ∧ decode 0x10006 = .error .countNonzero) := by decide

theorem witness_StepExecutesTheDecodedCommand :
    ((pendingWord 0x10007 []).status.busy = true ∧ (pendingWord 0x10007 []).fault = [] ∧
      decode (pendingWord 0x10007 []).pending.value = .ok (.step 1) ∧ (pendingWord 0x10007 []).host.moves = []) ∧
    ((pendingWord 0x5 [.coreTurn, .wait]).status.busy = true ∧ (pendingWord 0x5 [.coreTurn, .wait]).fault = [] ∧
      decode (pendingWord 0x5 [.coreTurn, .wait]).pending.value = .ok .hash ∧
      (pendingWord 0x5 [.coreTurn, .wait]).host.moves = [.coreTurn, .wait]) := by decide

/-- Each way for a word to be illegal, the first two and the next two at the ends of their ranges. -/
theorem witness_StepOfAnIllegalWordRaisesIllegalCmd :
    (∀ v : Word, (pendingWord v []).status.busy = true ∧ (pendingWord v []).fault = [] ∧
      (pendingWord v []).host.moves = [] ∧ (pendingWord v []).pending.value = v) ∧
    0x0A ≤ ((0x0a : Word).extractLsb' 0 8).toNat ∧ 0x0A ≤ ((0xff : Word).extractLsb' 0 8).toNat ∧
    (0x100 : Word).extractLsb' 8 8 ≠ 0 ∧ (0x8000000000000000 : Word).extractLsb' 32 32 ≠ 0 ∧
    ((0x10009 : Word).extractLsb' 16 16 ≠ 0 ∧ (0x10009 : Word).extractLsb' 0 8 ≠ 0x07 ∧
      (0x10009 : Word).extractLsb' 0 8 ≠ 0x08) ∧
    (∀ v : Word, (pendingWord v [.coreTurn, .wait]).status.busy = true ∧ (pendingWord v [.coreTurn, .wait]).fault = [] ∧
      (pendingWord v [.coreTurn, .wait]).host.moves = [.coreTurn, .wait] ∧
      (pendingWord v [.coreTurn, .wait]).pending.value = v) :=
  ⟨fun _ => ⟨rfl, rfl, rfl, rfl⟩, by decide, by decide, by decide, by decide, by decide, fun _ => ⟨rfl, rfl, rfl, rfl⟩⟩

theorem witness_CoreHasNoStepWhenIdleOrFaulted :
    ((withHost [.coreTurn]).host.moves = [.coreTurn] ∧ (withHost [.coreTurn]).status.busy = false) ∧
    ({ pendingWord 0 [.coreTurn] with fault := [.misaligned] }.host.moves = [.coreTurn] ∧
      { pendingWord 0 [.coreTurn] with fault := [.misaligned] }.fault ≠ []) := by decide

theorem witness_CommandsLeaveOtherStateUnchanged :
    ∀ i ∈ [Instr.nop, .configure, .encodeNode, .compress, .hash, .loadN, .step 1, .round 1, .readCv],
      i ≠ .softReset ∧ ∃ t, exec i State.reset = .next t := by
  intro i hi
  refine ⟨by revert i; decide, ?_⟩
  simp only [List.mem_cons, List.not_mem_nil, or_false] at hi
  rcases hi with rfl | rfl | rfl | rfl | rfl | rfl | rfl | rfl | rfl <;> exact ⟨_, rfl⟩

theorem witness_StepMakesTheHostsNextAccess :
    (withHost [.write 0x010 8 256]).host.moves = [.write 0x010 8 256] ∧
    (withHost [.read 0x580 8]).host.moves = [.read 0x580 8] := by decide

/-- The ends of each unmapped range, the last one without an end. -/
theorem witness_MisalignedOrUnmappedAccessHasNoEffect :
    (4 ≠ 8 ∧ 0x00C % 8 ≠ 0) ∧ Unmapped 0x090 ∧ Unmapped 0x0FF ∧ Unmapped 0x140 ∧ Unmapped 0x1FF ∧ Unmapped 0x4C8 ∧
    Unmapped 0x4FF ∧ Unmapped 0x5C0 ∧ Unmapped 0x5FF ∧ Unmapped 0x8C8 ∧ Unmapped 0xFFFF ∧
    Unmapped (0x10000 + Config.msgCapBytes) := by
  unfold Unmapped
  omega

/-- The ends of each read-only range. -/
theorem witness_ReadOnlyWritesAndCmdReadsHaveNoEffect :
    ReadOnly 0x008 ∧ ReadOnly 0x00F ∧ ReadOnly 0x060 ∧ ReadOnly 0x08F ∧ ReadOnly 0x500 ∧ ReadOnly 0x5BF ∧
    ReadOnly 0x600 ∧ ReadOnly 0x8C7 := by
  unfold ReadOnly
  omega

/-- No offset is in two of the classes of R94, and CMD's is in none. -/
theorem witness_offset_classes_are_disjoint (off : Nat) :
    ¬(Unmapped off ∧ ReadOnly off) ∧ ¬(Unmapped off ∧ ReadWrite off) ∧ ¬(ReadOnly off ∧ ReadWrite off) ∧
    ¬Unmapped 0 ∧ ¬ReadOnly 0 ∧ ¬ReadWrite 0 := by
  have := cap_eight
  unfold Unmapped ReadOnly ReadWrite
  omega

theorem witness_BusyBlockAllowsOnlyAStatusRead :
    (pendingWord 0 []).status.busy = true ∧ ¬(0x008 = 0x008 ∧ 4 = 8) ∧ ¬(0x010 = 0x008 ∧ 8 = 8) := by decide

theorem witness_CmdWriteLatchesTheCommand :
    State.reset.status.busy = false ∧ (pendingWord 0 []).status.busy = true := by decide

theorem witness_ConfigurationRegistersStoreTheWholeWord : State.reset.status.busy = false := by decide

theorem witness_CfgFlagsKeepsItsReservedBitsZero :
    State.reset.status.busy = false ∧ (hostWrite 0x030 8 1 State.reset).status.busy = false := by decide +kernel

/-- The first and the last word of each range. -/
theorem witness_WrittenWordIsReadBack :
    State.reset.status.busy = false ∧
    ∀ off ∈ [0x010, 0x058, 0x100, 0x138, 0x200, 0x4C0, 0x10000, 0x10000 + Config.msgCapBytes - 8],
      ReadWrite off ∧ off % 8 = 0 ∧ off ≠ 0x030 := by
  refine ⟨by decide, fun off h => ?_⟩
  have := Config.msgCapBytes_legal
  simp only [List.mem_cons, List.not_mem_nil, or_false] at h
  unfold ReadWrite
  omega

/-- Words written to and another word of the map. -/
theorem witness_WriteLeavesOtherWordsUnchanged :
    State.reset.status.busy = false ∧ ReadWrite 0x030 ∧ ReadWrite 0x138 ∧ ReadWrite 0x4C0 ∧
    ReadWrite (0x10000 + Config.msgCapBytes - 8) ∧ 0x138 % 8 = 0 ∧ 0x100 % 8 = 0 ∧ 0x100 ≠ 0x138 ∧
    (0x137 < 0x138 ∨ 0x138 + 8 ≤ 0x137) := by
  have := cap_eight
  refine ⟨by decide, ?_⟩
  unfold ReadWrite
  omega

theorem witness_KeyAndMessageWordsAreBigEndian :
    State.reset.status.busy = false ∧ InByteRegion 0x100 ∧ InByteRegion 0x138 ∧ InByteRegion 0x10000 ∧
    InByteRegion (0x10000 + Config.msgCapBytes - 8) ∧ (0x10000 + Config.msgCapBytes - 8) % 8 = 0 ∧ 7 < 8 := by
  have := Config.msgCapBytes_legal
  refine ⟨by decide, ?_⟩
  unfold InByteRegion
  omega

/-- At reset every clause is met, at both ends of its range. -/
theorem witness_UndefinedWordsAreNotRead :
    State.reset.status.busy = false ∧ State.reset.status.pbValid = false ∧ State.reset.status.winValid = false ∧
    State.reset.status.cvValid = false ∧ State.reset.status.digestValid = false ∧
    (∀ off ∈ [0x060, 0x078, 0x080, 0x088, 0x600, 0x8C0, 0x500, 0x578, 0x580, 0x5B8, 0x200, 0x4C0], off % 8 = 0) ∧
    (∃ h : 88 < 89, 0x4C0 = 0x200 + 8 * 88 ∧ (State.reset.nBuf[88]'h).defined = false) ∧
    (InByteRegion 0x138 ∧ Memory.read State.reset.mem (0x138 + 7) = none) ∧
    (InByteRegion 0x10000 ∧ Memory.read State.reset.mem (0x10000 + 7) = none) := by
  have := cap_eight
  refine ⟨by decide, by decide, by decide, by decide, by decide, by decide, ⟨by decide, by decide, ?_⟩, ⟨?_, rfl⟩, ?_, rfl⟩
  · decide +kernel
  · exact .inl (by decide)
  · exact .inr (by omega)

theorem witness_DefinedRegistersReadTheirValue :
    ((configured 104).status.pbValid = true ∧ (configured 104).status.busy = false) ∧
    ((zeroWindow State.reset).status.winValid = true ∧ (zeroWindow State.reset).status.busy = false) ∧
    ({ Status.reset with cvValid := true }.cvValid = true ∧ { Status.reset with cvValid := true }.busy = false) ∧
    ({ Status.reset with digestValid := true }.digestValid = true ∧
      { Status.reset with digestValid := true }.busy = false) ∧
    (((zeroInput State.reset).nBuf[88]).defined = true ∧ (zeroInput State.reset).status.busy = false) := by
  decide +kernel

theorem witness_ResetEventRestoresTheResetTable :
    (withHost [.reset]).host.moves = [.reset] ∧ (withHost [.reset]).status.busy = false := by decide

theorem witness_NopOnlyCompletes : ∃ t, exec .nop State.reset = .next t := ⟨_, rfl⟩

theorem witness_StepOneIsTheSequencerStep :
    (zeroWindow State.reset).status.winValid = true ∧
    { zeroWindow State.reset with
        win := { loadWindow (Vector.replicate 89 0) with stepCtr := BitVec.allOnes 64 } }.status.winValid = true := by decide +kernel

theorem zeroInput_defined (s : State) (j : Nat) (h : j < 89) : (zeroInput s).nBuf[j] = ⟨0, true⟩ := by
  simp [zeroInput]

theorem reset_nBuf_undefined : ∃ j, ∃ h : j < 89, (State.reset.nBuf[j]'h).defined = false :=
  ⟨88, by decide, by decide +kernel⟩

theorem witness_LoadNLoadsTheWindow :
    (∀ j (h : j < 89), ((zeroInput State.reset).nBuf[j]).defined = true) ∧
    (∃ j, ∃ h : j < 89, (State.reset.nBuf[j]'h).defined = false) :=
  ⟨fun j h => by rw [zeroInput_defined], reset_nBuf_undefined⟩

theorem witness_window_valid_and_not :
    State.reset.status.winValid = false ∧ (zeroWindow State.reset).status.winValid = true := by decide

/-- STEP, ROUND and READ_CV without a window and with one. -/
theorem witness_StepPerformsNSequencerSteps :
    65535 < 65536 ∧ State.reset.status.winValid = false ∧ (zeroWindow State.reset).status.winValid = true :=
  ⟨by decide, witness_window_valid_and_not⟩
theorem witness_RoundPerformsSixteenTimesNSteps :
    65535 < 65536 ∧ State.reset.status.winValid = false ∧ (zeroWindow State.reset).status.winValid = true :=
  ⟨by decide, witness_window_valid_and_not⟩
theorem witness_ReadCvCopiesTheLastSixteenWords :
    State.reset.status.winValid = false ∧ (zeroWindow State.reset).status.winValid = true := witness_window_valid_and_not

theorem witness_WindowHoldsTheWorkingArray :
    (∀ j (h : j < 89), (zeroInput State.reset).nBuf[j] = ⟨(Vector.replicate 89 (0 : Word))[j], true⟩) ∧
    2 ^ 64 - 1 < 2 ^ 64 :=
  ⟨fun j h => by rw [zeroInput_defined]; simp, by decide⟩

theorem witness_CompressComputesTheCompressionFunction :
    State.reset.status.pbValid = false ∧
    ((configured 104).status.pbValid = true ∧ ∃ j, ∃ h : j < 89, ((configured 104).nBuf[j]'h).defined = false) ∧
    ((zeroInput (configured 0)).status.pbValid = true ∧
      ∀ j (h : j < 89), (zeroInput (configured 0)).nBuf[j] = ⟨(Vector.replicate 89 (0 : Word))[j], true⟩) :=
  ⟨rfl, ⟨rfl, reset_nBuf_undefined⟩, rfl, fun j h => by rw [zeroInput_defined]; simp⟩

theorem witness_DefaultRoundCountIsThePublishedOne : 0 < 1 ∧ 1 ≤ 1 ∧ 512 ≤ 512 := by decide

/-- Each check at its first illegal value. -/
theorem witness_ConfigureReportsTheFirstFailingCheck :
    (State.reset.cfgD.toNat = 0) ∧
    (512 < { State.reset with cfgD := 513 }.cfgD.toNat) ∧
    (¬(512 < { State.reset with cfgD := 512, cfgKeylen := 65 }.cfgD.toNat) ∧
      64 < { State.reset with cfgD := 512, cfgKeylen := 65 }.cfgKeylen.toNat) ∧
    (¬(64 < { State.reset with cfgD := 1, cfgKeylen := 64, cfgL := 65 }.cfgKeylen.toNat) ∧
      64 < { State.reset with cfgD := 1, cfgKeylen := 64, cfgL := 65 }.cfgL.toNat) ∧
    ({ State.reset with cfgD := 1, rOverride := true, cfgR := 256 }.rOverride = true ∧
      255 < { State.reset with cfgD := 1, rOverride := true, cfgR := 256 }.cfgR.toNat) := by decide +kernel

theorem legal_legal : LegalConfiguration legal := by
  refine ⟨by decide, by decide, by decide, by decide, fun h => ?_⟩
  exact absurd h (by decide)

/-- A legal configuration with an undefined key byte, and one with its key bytes defined. -/
theorem witness_ConfigureLatchesTheParameterBlock :
    (LegalConfiguration { legal with cfgKeylen := 3 } ∧
      2 < { legal with cfgKeylen := 3 }.cfgKeylen.toNat ∧ Memory.read { legal with cfgKeylen := 3 }.mem (0x100 + 2) = none) ∧
    (LegalConfiguration legal ∧ ∀ a, a < legal.cfgKeylen.toNat →
      Memory.read legal.mem (0x100 + a) = some ((fun n : Nat => if n = 0 then (0x61 : Byte) else 0x62) a)) := by
  refine ⟨⟨⟨by decide, by decide, by decide, by decide, fun h => absurd h (by decide)⟩, by decide, by decide⟩,
    legal_legal, fun a ha => ?_⟩
  have h2 : a < 2 := ha
  interval_cases a <;> decide

theorem witness_EncodeNodeWritesTheHeader :
    State.reset.status.pbValid = false ∧
    ((configured 104).status.pbValid = true ∧ ¬({ configured 104 with encP := 4097 }.encP.toNat ≤ 4096)) ∧
    ({ configured 104 with encLevel := 255, encIndex := 0xffffffffffffff, encZ := 1, encP := 4096 }.status.pbValid = true ∧
      (255 : Word).toNat ≤ 255 ∧ (0xffffffffffffff : Word).toNat < 2 ^ 56 ∧ (1 : Word).toNat ≤ 1 ∧
      (4096 : Word).toNat ≤ 4096) := by decide +kernel

theorem coreRuns_pendingWord (v : Word) (i : Instr) (h : decode v = .ok i) :
    CoreRuns (pendingWord v []) i ∧ CoreRuns (pendingWord v [.coreTurn]) i :=
  ⟨⟨rfl, rfl, .inl rfl, h⟩, rfl, rfl, .inr rfl, h⟩

/-- A step of each kind that may change the parameter block. -/
theorem witness_ParameterBlockIsImmutable :
    (∃ t, step State.reset = .next t) ∧
    ((withHost [.reset]).host.moves.head? = some .reset ∧ ∃ t, step (withHost [.reset]) = .next t) ∧
    (CoreRuns (pendingWord 0x2 []) .configure ∧ ∃ t, step (pendingWord 0x2 []) = .next t) ∧
    (CoreRuns (pendingWord 0x1 []) .softReset ∧ ∃ t, step (pendingWord 0x1 []) = .next t) :=
  ⟨⟨_, rfl⟩, ⟨rfl, _, rfl⟩, ⟨(coreRuns_pendingWord _ _ (by decide)).1, _, rfl⟩,
    (coreRuns_pendingWord _ _ (by decide)).1, _, rfl⟩

theorem witness_HashLeavesTheDigestOfTheMessage :
    State.reset.status.pbValid = false ∧
    ((configured 104).status.pbValid = true ∧
      Config.msgCapBytes < { configured 104 with msgLen := BitVec.allOnes 64 }.msgLen.toNat) ∧
    ({ configured 104 with msgLen := 1 }.msgLen.toNat ≤ Config.msgCapBytes ∧
      0 < { configured 104 with msgLen := 1 }.msgLen.toNat ∧
      Memory.read { configured 104 with msgLen := 1 }.mem (0x10000 + 0) = none) ∧
    ({ configured 104 with msgLen := 1, mem := [(0x10000, 0x61)] }.msgLen.toNat ≤ Config.msgCapBytes ∧
      [(0x61 : Byte)].length = { configured 104 with msgLen := 1, mem := [(0x10000, 0x61)] }.msgLen.toNat ∧
      ∀ a (h : a < [(0x61 : Byte)].length),
        Memory.read { configured 104 with msgLen := 1, mem := [(0x10000, 0x61)] }.mem (0x10000 + a) =
          some [(0x61 : Byte)][a]) := by
  have hc := Config.msgCapBytes_legal
  have h1 : (1 : Word).toNat = 1 := by decide
  refine ⟨rfl, ⟨rfl, ?_⟩, ⟨?_, by decide, rfl⟩, ?_, by decide, fun a h => ?_⟩
  · show Config.msgCapBytes < (BitVec.allOnes 64).toNat
    rw [show (BitVec.allOnes 64).toNat = 2 ^ 64 - 1 by decide]
    omega
  · show (1 : Word).toNat ≤ _
    omega
  · show (1 : Word).toNat ≤ _
    omega
  · obtain rfl : a = 0 := by simpa using h
    rfl

theorem witness_DigestIsTheLastBitsLeftJustified : 1 ≤ 1 ∧ 1 ≤ 512 ∧ 512 ≤ 512 ∧ 511 < 512 := by decide

theorem witness_KeyDoesNotChangeTheTreeShape :
    (params 104).l = { params 80 with keylen := 64 }.l ∧ [true].length = [false].length := by decide

theorem witness_DefaultHeightNeverReachesTheSequentialLevel :
    27 ≤ { params 104 with l := 27 }.l.toNat ∧ ([] : List Byte).length ≤ Config.msgCapBytes ∧
    topCalls { params 104 with l := 27 } (bitsOfBytes []) ≠ [] :=
  ⟨by decide, Nat.zero_le _, by decide +kernel⟩

theorem witness_EmptyMessageMakesOneCall :
    1 ≤ (params 104).l.toNat ∧ { params 104 with l := 0 }.l.toNat = 0 := by decide

/-- A memory that differs above the length, for HASH (length 0) and for CONFIGURE (keylen 2). -/
theorem witness_BytesBeyondTheLengthAreNotRead :
    ((∀ a, a < State.reset.msgLen.toNat →
        Memory.read [(0x10000, 1)] (0x10000 + a) = Memory.read State.reset.mem (0x10000 + a)) ∧
      ∃ t, exec .hash State.reset = .next t) ∧
    ((∀ a, a < legal.cfgKeylen.toNat →
        Memory.read (legal.mem ++ [(0x102, 1)]) (0x100 + a) = Memory.read legal.mem (0x100 + a)) ∧
      ∃ t, exec .configure legal = .next t) := by
  refine ⟨⟨fun a h => absurd h (Nat.not_lt_zero a), _, rfl⟩, fun a h => ?_, _, rfl⟩
  have h2 : a < 2 := h
  interval_cases a <;> decide

theorem witness_FaultIsNeverCleared :
    (∃ t, step { withHost [.reset] with fault := [.unmapped] } = .next t) ∧
    ModelFault.unmapped ∈ { withHost [.reset] with fault := [.unmapped] }.fault ∧
    { State.reset with fault := [.readWo] }.fault ≠ [] := ⟨⟨_, rfl⟩, by decide, by decide⟩

theorem reset_control : ControlInv State.reset :=
  { busyClearsDoneAndErr := by decide
    errMeansDone := by decide
    errcodeNamesTheError := by decide
    noTreeHeight := by decide
    busyMeansPending := by decide
    pbInRange := fun h => absurd h (by decide)
    faultIsASet := by decide }

theorem witness_StepKeepsControlInvariant : ControlInv State.reset ∧ ∃ t, step State.reset = .next t :=
  ⟨reset_control, _, rfl⟩

theorem witness_StepKeepsMemoryInvariant :
    MemoryInv legal ∧ ∃ t, step legal = .next t := by
  refine ⟨⟨by decide, fun c h => ?_⟩, _, rfl⟩
  have hc : c = (0x100, 0x61) ∨ c = (0x101, 0x62) := by simpa [legal] using h
  rcases hc with rfl | rfl <;> exact .inl (by decide)

/-- A window that holds an array, for STEP and ROUND. -/
theorem window_before (v : Word) :
    (zeroWindow (pendingWord v [])).status.winValid = true ∧ WindowInv (zeroWindow (pendingWord v [])) ∧
    HoldsArray (zeroWindow (pendingWord v [])).win (Vector.replicate 89 0) 0 :=
  ⟨rfl, fun _ => ⟨_, _, holdsArray_loadWindow _⟩, holdsArray_loadWindow _⟩

/-- STEP 65535 and ROUND 0 on a window that holds an array. -/
theorem witness_StepKeepsWindowInvariant :
    ((zeroWindow (pendingWord 0xffff0007 [])).status.winValid = true ∧
      CoreRuns (zeroWindow (pendingWord 0xffff0007 [])) (.step 65535)) ∧
    (CoreRuns (zeroWindow (pendingWord 0x8 [])) (.round 0) ∧ ∃ t, step (zeroWindow (pendingWord 0x8 [])) = .next t) :=
  ⟨⟨rfl, rfl, rfl, .inl rfl, by decide⟩, ⟨rfl, rfl, .inl rfl, by decide⟩, _, rfl⟩

/-- LOAD_N and COMPRESS with N_BUF defined. -/
theorem witness_StepKeepsWindowInvariant_load :
    (∀ j (h : j < 89), (zeroInput (pendingWord 0x6 [])).nBuf[j] = ⟨(Vector.replicate 89 (0 : Word))[j], true⟩) ∧
    CoreRuns (zeroInput (pendingWord 0x6 [])) .loadN ∧
    CoreRuns { zeroInput (pendingWord 0x4 []) with status := { Status.reset with busy := true, pbValid := true } }
      .compress ∧
    { zeroInput (pendingWord 0x4 []) with
      status := { Status.reset with busy := true, pbValid := true } }.status.pbValid = true :=
  ⟨fun j h => by rw [zeroInput_defined]; simp, ⟨rfl, rfl, .inl rfl, by decide⟩, ⟨rfl, rfl, .inl rfl, by decide⟩, rfl⟩

/-- A step that does not write a window there is: a host write. -/
theorem witness_StepKeepsWindowInvariant_frame :
    ¬WritesWindow (zeroWindow (withHost [.write 0x010 8 256])) ∧
    ∃ t, step (zeroWindow (withHost [.write 0x010 8 256])) = .next t ∧ t.status.winValid = true := by
  refine ⟨?_, _, rfl, rfl⟩
  have hr : ∀ i, ¬CoreRuns (zeroWindow (withHost [.write 0x010 8 256])) i := fun i h => absurd h.1 (by decide)
  rintro (⟨_, m, h | h⟩ | ⟨_, h | ⟨h, _⟩⟩) <;> exact hr _ h

theorem witness_StepKeepsAccumulatorInvariant :
    ControlInv State.reset ∧ AccumulatorInv State.reset ∧ ∃ t, step State.reset = .next t :=
  ⟨reset_control, ⟨Nat.zero_le _, Nat.zero_le _, Nat.zero_le _⟩, _, rfl⟩

theorem witness_WaitEndsUnlessTheCommandFaults :
    (pendingWord 0x6 [.wait, .expectOk]).host.moves = [.wait, .expectOk] ∧
    (pendingWord 0x6 [.wait, .expectOk]).status.busy = true ∧ (pendingWord 0x6 [.wait, .expectOk]).fault = [] := by decide

end Sys2Proof.Tests
end

section
/-! SUPPORT. FAULT never loses a member (10_state.md R40): one lemma per operation a step is made of, and one for the
step. -/

namespace Sys2Proof.Machine

/-- Storing a word leaves FAULT alone. -/
@[simp] theorem writeElement_fault (v : Word) (s : State) (e : Element) : (writeElement v s e).fault = s.fault := by
  cases e <;> rfl

/-- A `require` leaves FAULT alone. -/
@[simp] theorem requireHost_fault (c : Bool) (s : State) : (requireHost c s).fault = s.fault := by
  cases c <;> rfl

/-- A turn of WAIT leaves FAULT alone. -/
@[simp] theorem waitTurn_fault (s : State) : (waitTurn s).fault = s.fault := by
  unfold waitTurn
  split <;> rfl

/-- Recording model faults keeps the members of FAULT. -/
theorem fault_subset_recordFaults (fs : List ModelFault) (s : State) : s.fault ⊆ (recordFaults fs s).fault :=
  fun g hg => (mem_recordFaults fs g s).mpr (.inl hg)

/-- A host write keeps the members of FAULT. -/
theorem fault_subset_hostWrite (off width : Nat) (v : Word) (s : State) : s.fault ⊆ (hostWrite off width v s).fault := by
  rcases hostWrite_cases off width v s with ⟨_, e, _, h⟩ | ⟨_, h⟩ <;> rw [h]
  · rw [writeElement_fault]
    exact List.Subset.refl _
  · exact fault_subset_recordFaults _ s

/-- A host read keeps the members of FAULT. -/
theorem fault_subset_hostRead (off width : Nat) (s : State) : s.fault ⊆ (hostRead off width s).fault := by
  rcases hostRead_cases off width s with ⟨_, h⟩ | ⟨_, h⟩ <;> rw [h, noteRead_fault]
  · exact List.Subset.refl _
  · exact fault_subset_recordFaults _ s

/-- A command, however it ends, keeps the members of FAULT. -/
theorem fault_subset_exec (i : Instr) (s t : State) (h : exec i s = .next t) : s.fault ⊆ t.fault := by
  rcases exec_cases i s with ⟨code, _, _, he⟩ | he | ⟨u, he, hu, _⟩ <;>
    obtain rfl := Host.Outcome.next.inj (he.symm.trans h)
  · exact List.Subset.refl _
  · exact fun g hg => (mem_recordFault _ g s).mpr (.inl hg)
  · exact fun g hg => hu.symm ▸ hg

/-- The core's step keeps the members of FAULT. -/
theorem fault_subset_coreStep (s t : State) (h : CoreStep s (.next t)) : s.fault ⊆ t.fault := by
  rcases h with ⟨i, _, he⟩ | ⟨_, _, he⟩
  · exact fault_subset_exec i s t he.symm
  · obtain rfl := Host.Outcome.next.inj he
    exact List.Subset.refl _

/-- Every step keeps the members of FAULT. -/
theorem fault_subset_step (s t : State) (h : step s = .next t) : s.fault ⊆ t.fault := by
  rcases step_next_cases s t h with ⟨off, width, v, rest, _, rfl⟩ | ⟨off, width, rest, _, rfl⟩ | ⟨rest, _, rfl⟩ |
    ⟨rest, _, rfl⟩ | ⟨code, rest, _, rfl⟩ | ⟨rest, _, _, rfl⟩ | ⟨rest, _, _, rfl⟩ | ⟨_, _, _, rfl⟩ | ⟨rest, _, _, _, hc⟩
  · exact fault_subset_hostWrite off width v (s.withMoves rest)
  · exact fault_subset_hostRead off width (s.withMoves rest)
  · simp
  · simp [expectOk]
  · simp [expectErr]
  · simp
  · simp
  · simp
  · exact fault_subset_coreStep (s.withMoves rest) t hc

/-- Settles O54: the reset state lists no fault, each move and each command at most adds faults, and a final state has
none. -/
theorem faultIsNeverCleared : Obligations.FaultIsNeverCleared := by
  refine ⟨rfl, fun s t h => fault_subset_step s t h, fun s hs hfinal => ?_⟩
  obtain ⟨_, _, _, hf⟩ := hfinal
  exact hs hf

end Sys2Proof.Machine
end

section
/-! SUPPORT. The model faults of an access as a set (60_exceptions.md R279), and what a faulting access leaves unchanged
(20_memory.md R61 to R64). -/

namespace Sys2Proof.Machine

theorem mem_faultIf (c : Bool) (f g : ModelFault) : g ∈ faultIf c f ↔ c = true ∧ g = f := by
  cases c <;> simp [faultIf]

theorem accessMisaligned_iff (off width : Nat) : accessMisaligned off width = true ↔ width ≠ 8 ∨ off % 8 ≠ 0 := by
  simp [accessMisaligned]

/-- R94's gaps are the offsets without a word. -/
theorem unmapped_iff (off : Nat) : Unmapped off ↔ elementAt off = none := (elementAt_eq_none_iff off).symm

/-- The faults of a write, one case per rule of R279. -/
theorem mem_writeFaults (off width : Nat) (s : State) (f : ModelFault) : f ∈ writeFaults off width s ↔
    ((width ≠ 8 ∨ off % 8 ≠ 0) ∧ f = .misaligned) ∨ (Unmapped off ∧ f = .unmapped) ∨
    (ReadOnly off ∧ f = .writeRo) ∨ (s.status.busy = true ∧ f = .busyAccess) := by
  simp only [writeFaults, List.mem_append, mem_faultIf, accessMisaligned_iff, Option.isNone_iff_eq_none,
    ← unmapped_iff, elementAt_readOnly_iff, ← ReadOnly.eq_def, or_assoc]

/-- The faults of a read, one case per rule of R279. -/
theorem mem_readFaults (off width : Nat) (s : State) (f : ModelFault) : f ∈ readFaults off width s ↔
    ((width ≠ 8 ∨ off % 8 ≠ 0) ∧ f = .misaligned) ∨ (Unmapped off ∧ f = .unmapped) ∨
    (off < 8 ∧ f = .readWo) ∨ ((s.status.busy = true ∧ ¬(off = 0x008 ∧ width = 8)) ∧ f = .busyAccess) ∨
    ((∃ e, elementAt off = some e ∧ e.access ≠ .wo ∧ readElement s e = none) ∧ f = .undefinedRead) := by
  have hbusy : (s.status.busy && !isStatusRead off width) = true ↔
      s.status.busy = true ∧ ¬(off = 0x008 ∧ width = 8) := by
    simp [isStatusRead, imp_iff_not_or]
  simp only [readFaults, List.mem_append, mem_faultIf, accessMisaligned_iff, Option.isNone_iff_eq_none,
    ← unmapped_iff, beq_iff_eq, elementAt_eq_cmd_iff, hbusy, or_assoc]
  refine or_congr_right (or_congr_right (or_congr_right (or_congr_right ?_)))
  cases elementAt off with
  | none => simp
  | some e => simp [mem_faultIf]

/-- A write that meets a rule of R279 records that rule's fault and changes FAULT alone. -/
theorem hostWrite_of_mem_writeFaults {off width : Nat} {s : State} {f : ModelFault} (v : Word)
    (h : f ∈ writeFaults off width s) :
    hostWrite off width v s = { s with fault := (hostWrite off width v s).fault } ∧
      f ∈ (hostWrite off width v s).fault := by
  obtain ⟨hframe, hmem⟩ := hostWrite_of_faults off width v s (List.ne_nil_of_mem h)
  exact ⟨hframe, (hmem f).mpr (.inr h)⟩

/-- A read that meets a rule of R279 records that rule's fault, gives no value, and leaves the block as it was. -/
theorem hostRead_of_mem_readFaults {off width : Nat} {s : State} {f : ModelFault} (h : f ∈ readFaults off width s) :
    SameApartFromFault s (hostRead off width s) ∧
      (hostRead off width s).host = { s.host with reads := s.host.reads ++ [none] } ∧
      f ∈ (hostRead off width s).fault := by
  obtain ⟨hframe, hmem⟩ := hostRead_of_faults off width s (List.ne_nil_of_mem h)
  have hhost : (hostRead off width s).host = { s.host with reads := s.host.reads ++ [none] } := by
    rw [hframe]
    rfl
  refine ⟨?_, hhost, (hmem f).mpr (.inr h)⟩
  rw [SameApartFromFault, hhost]
  exact hframe

end Sys2Proof.Machine
end

section
/-! PROOFS. The host port (20_memory.md): accesses without effect, and the write to CMD. -/

namespace Sys2Proof.Machine

/-- Settles O12: the misaligned and the unmapped condition are each a rule of R279 for the write and for the read, and an
access that meets a rule has no effect. -/
theorem misalignedOrUnmappedAccessHasNoEffect : Obligations.MisalignedOrUnmappedAccessHasNoEffect := by
  intro s off width v haccess
  have hmisaligned (h : width ≠ 8 ∨ off % 8 ≠ 0) :
      .misaligned ∈ writeFaults off width s ∧ .misaligned ∈ readFaults off width s :=
    ⟨(mem_writeFaults ..).mpr (.inl ⟨h, rfl⟩), (mem_readFaults ..).mpr (.inl ⟨h, rfl⟩)⟩
  have hunmapped (h : Unmapped off) : .unmapped ∈ writeFaults off width s ∧ .unmapped ∈ readFaults off width s :=
    ⟨(mem_writeFaults ..).mpr (.inr (.inl ⟨h, rfl⟩)), (mem_readFaults ..).mpr (.inr (.inl ⟨h, rfl⟩))⟩
  have hfault : ∃ f, f ∈ writeFaults off width s ∧ f ∈ readFaults off width s := by
    rcases or_assoc.mpr haccess with h | h
    · exact ⟨_, hmisaligned h⟩
    · exact ⟨_, hunmapped h⟩
  obtain ⟨f, hw, hr⟩ := hfault
  obtain ⟨hsame, hhost, _⟩ := hostRead_of_mem_readFaults hr
  refine ⟨(hostWrite_of_mem_writeFaults v hw).1, hsame, hhost, fun h => ?_, fun h => ?_⟩
  · obtain ⟨hw, hr⟩ := hmisaligned h
    exact ⟨(hostWrite_of_mem_writeFaults v hw).2, (hostRead_of_mem_readFaults hr).2.2⟩
  · obtain ⟨hw, hr⟩ := hunmapped h
    exact ⟨(hostWrite_of_mem_writeFaults v hw).2, (hostRead_of_mem_readFaults hr).2.2⟩

/-- While BUSY = 1 a CMD write meets the rule of F_BUSY_ACCESS and no other (20_memory.md R64). -/
theorem mem_writeFaults_cmd_of_busy {s : State} (h : s.status.busy = true) (f : ModelFault) :
    f ∈ writeFaults 0x000 8 s ↔ f = .busyAccess := by
  simp [mem_writeFaults, Unmapped, ReadOnly, h]

/-- Settles O15: with BUSY = 0 the write meets no rule of R279 and issues the command, with BUSY = 1 it meets exactly that
of F_BUSY_ACCESS. -/
theorem cmdWriteLatchesTheCommand : Obligations.CmdWriteLatchesTheCommand := by
  refine fun s v => ⟨fun hidle => ?_, fun hbusy => ?_⟩
  · exact hostWrite_eq 0x000 v s .cmd rfl rfl hidle (by decide)
  · have hfaults := mem_writeFaults_cmd_of_busy hbusy
    obtain ⟨hframe, hmem⟩ := hostWrite_of_faults 0x000 8 v s (List.ne_nil_of_mem ((hfaults _).mpr rfl))
    exact ⟨fun f => (hmem f).trans (or_congr_right (hfaults f)), hframe⟩

end Sys2Proof.Machine
end

section
/-! PROOFS. The encoded words (30_encoding.md R96, R97): the control word V and the node identifier U. -/

namespace Sys2Proof.Machine

/-- Appending a field below a word: the word moves up by the field's width and the field is XORed in. Both
sides keep the low 64 bits, so the widths need no bound. -/
theorem shiftLeft_xor_setWidth_eq_append {a b : Nat} (x : BitVec a) (y : BitVec b) :
    (x.setWidth 64 <<< b) ^^^ y.setWidth 64 = (x ++ y).setWidth 64 := by
  apply BitVec.eq_of_getLsbD_eq
  intro i hi
  by_cases hfield : i < b
  · simp [BitVec.getLsbD_append, hi, hfield]
  · have habove : y.getLsbD i = false := BitVec.getLsbD_of_ge y i (Nat.le_of_not_lt hfield)
    simp [BitVec.getLsbD_append, hi, hfield, habove]

/-- V built one field at a time from the most significant one: each shift of R96 is the sum of the widths below it. -/
theorem controlWord_eq_horner (r l z p keylen d : Word) : controlWord r l z p keylen d =
    ((((r <<< 8 ^^^ l) <<< 4 ^^^ z) <<< 16 ^^^ p) <<< 8 ^^^ keylen) <<< 12 ^^^ d := by
  simp only [controlWord, BitVec.shiftLeft_xor_distrib, ← BitVec.shiftLeft_add]

/-- R96's layout: each step of the field-by-field form appends one field, and the reserved bits are an appended 0. -/
theorem controlWord_setWidth_eq_append (r d : BitVec 12) (l keylen : BitVec 8) (z : BitVec 4) (p : BitVec 16) :
    controlWord (r.setWidth 64) (l.setWidth 64) (z.setWidth 64) (p.setWidth 64) (keylen.setWidth 64) (d.setWidth 64) =
      0#4 ++ r ++ l ++ z ++ p ++ keylen ++ d := by
  have hreserved : r.setWidth 64 = (0#4 ++ r).setWidth 64 := by
    simpa using shiftLeft_xor_setWidth_eq_append 0#4 r
  rw [controlWord_eq_horner, hreserved]
  simp only [shiftLeft_xor_setWidth_eq_append]
  exact BitVec.setWidth_eq _

/-- Settles O41: the formula is the definition, the layout is `controlWord_setWidth_eq_append`, and the example is
evaluated. -/
theorem controlWordHoldsItsFields : Obligations.ControlWordHoldsItsFields :=
  ⟨fun _ _ _ _ _ _ => rfl, controlWord_setWidth_eq_append, by decide⟩

/-- R97's layout: U is the level with the index appended below it. -/
theorem nodeIdent_setWidth_eq_append (level : BitVec 8) (index : BitVec 56) :
    nodeIdent (level.setWidth 64) (index.setWidth 64) = level ++ index :=
  (shiftLeft_xor_setWidth_eq_append level index).trans (BitVec.setWidth_eq _)

/-- Settles O42: the layout is `nodeIdent_setWidth_eq_append`, and the two examples are evaluated. -/
theorem nodeIdentifierHoldsLevelAndIndex : Obligations.NodeIdentifierHoldsLevelAndIndex :=
  ⟨nodeIdent_setWidth_eq_append, by decide, by decide⟩

end Sys2Proof.Machine
end

section
/-! SUPPORT. The two completions that are not a success, and decoding a command's word (30_encoding.md R90 to R93). -/

namespace Sys2Proof.Machine

/-- The error completion changes STATUS alone (60_exceptions.md R273). -/
theorem endsInError_of_eq_raiseError {o : Host.Outcome State Fault Refusal} {code : ErrCode} {s : State}
    (h : o = raiseError code s) : ∃ t, o = .next t ∧ EndsInError s t code :=
  ⟨_, h, rfl⟩

/-- F_UNDEFINED_INPUT changes FAULT alone (60_exceptions.md R280). -/
theorem recordsOnly_of_eq_undefinedInput {o : Host.Outcome State Fault Refusal} {s : State}
    (h : o = undefinedInput s) : ∃ t, o = .next t ∧ RecordsOnly s t .undefinedInput :=
  ⟨_, h, fun g => mem_recordFault _ g s, recordFault_eq _ s⟩

/-- A COUNT that fits its field is read back from it (R91). -/
theorem toNat_count_of_countFits {n : Nat} (h : countFits n = true) : (BitVec.ofNat 16 n).toNat = n := by
  rw [BitVec.toNat_ofNat, Nat.mod_eq_of_lt (of_decide_eq_true h)]

/-- A command is decoded from its word: OP picks the command, and STEP and ROUND take their operand from COUNT. -/
theorem decode_encode (i : Instr) (h : i.wellFormed = true) : decode (encode i) = .ok i := by
  obtain ⟨hop, hrsv1, hcount, hrsv2⟩ := encode_fields i
  rw [decode_eq, if_pos ⟨hrsv1, hrsv2⟩, hop, hcount]
  cases i with
  | step n => exact congrArg (fun m => Except.ok (Instr.step m)) (toNat_count_of_countFits h)
  | round n => exact congrArg (fun m => Except.ok (Instr.round m)) (toNat_count_of_countFits h)
  | _ => rfl

end Sys2Proof.Machine
end

section
/-! SUPPORT. What LOAD_N, STEP, ROUND and READ_CV leave (40_round_function.md R128 to R131), one lemma per completion, and
the words of a step and of the compression output. -/

namespace Sys2Proof.Machine

/-- The last word after a step is the appended one (R124). -/
theorem stepFn_getElem_last (w : Words89) (s : Word) (k : Nat) : (stepFn w s k)[88] = stepWord w s k := by
  simp [stepFn]

/-- Every other word moves down by one (R124). -/
theorem stepFn_getElem_of_lt (w : Words89) (s : Word) (k j : Nat) (h : j < 88) : (stepFn w s k)[j] = w[j + 1] := by
  simp [stepFn, h]

@[simp] theorem lastWords_getElem (w : Words89) (j : Nat) (h : j < 16) : (lastWords w)[j] = w[73 + j] :=
  tabulate_getElem _ j h

/-- 16·n steps keep STEP_CTR mod 16, through the wrap at 2^64 too (R130). -/
theorem runSteps_stepCtr_mod (n : Nat) (x : Window) :
    (runSteps (16 * n) x).stepCtr.toNat % 16 = x.stepCtr.toNat % 16 := by
  rw [runSteps_stepCtr, BitVec.toNat_add, BitVec.toNat_ofNat]
  omega

/-- With every N_BUF word defined, the operand of LOAD_N is their values. -/
theorem exists_nBufWords (s : State) (h : ∀ j (hj : j < 89), s.nBuf[j].defined = true) :
    ∃ n, nBufWords s = some n ∧ ∀ j (hj : j < 89), n[j] = s.nBuf[j].value := by
  refine ⟨tabulate fun t => s.nBuf[t].value, nBufWords_eq_some s _ fun j hj => ?_, fun j hj => tabulate_getElem _ j hj⟩
  rw [tabulate_getElem, ← h j hj]
  rfl

theorem exec_loadN_of_nBufWords {s : State} {n : Words89} (h : nBufWords s = some n) :
    exec .loadN s =
      .next { s with win := loadWindow n, status := { Success s.status with winValid := true } } := by
  show execLoadN s = _
  rw [execLoadN, h]
  rfl

theorem exec_loadN_of_undefined {s : State} (h : nBufWords s = none) : exec .loadN s = undefinedInput s := by
  show execLoadN s = _
  rw [execLoadN, h]

/-- STEP and ROUND without a window (R129, R130). -/
theorem stepWindow_of_not_winValid {s : State} (h : s.status.winValid = false) (n : Nat) :
    stepWindow n s = raiseError .noWindow s := by
  simp [stepWindow, h]

/-- STEP and ROUND with a window (R129, R130). -/
theorem stepWindow_of_winValid {s : State} (h : s.status.winValid = true) (n : Nat) :
    stepWindow n s = .next { s with win := runSteps n s.win, status := Success s.status } := by
  rw [stepWindow, if_pos h]
  rfl

end Sys2Proof.Machine
end

section
/-! PROOFS. The round function (40_round_function.md) and the compression function in its array form (41_compression.md
R150, R151). -/

namespace Sys2Proof.Machine

/-- Settles O32: STEP n is n runs of the sequencer, which are the n-fold iterate of one step. -/
theorem stepPerformsNSequencerSteps : Obligations.StepPerformsNSequencerSteps := by
  refine fun n s => ⟨fun h => decode_encode (.step n) (decide_eq_true h), rfl, fun h => ?_, fun h => ?_⟩
  · exact endsInError_of_eq_raiseError (stepWindow_of_not_winValid h n)
  · exact runSteps_eq_iterate n s.win ▸ stepWindow_of_winValid h n

/-- Settles O33: ROUND n is 16·n runs of the sequencer, and `runSteps_stepCtr_mod` is the clause on STEP_CTR. -/
theorem roundPerformsSixteenTimesNSteps : Obligations.RoundPerformsSixteenTimesNSteps := by
  refine fun n s => ⟨fun h => decode_encode (.round n) (decide_eq_true h), fun h => ?_, fun h => ?_⟩
  · exact endsInError_of_eq_raiseError (stepWindow_of_not_winValid h (16 * n))
  · rw [← runSteps_eq_iterate]
    exact ⟨_, stepWindow_of_winValid h (16 * n), rfl, runSteps_stepCtr_mod n s.win⟩

/-- Settles O36: the loop of R150 is the sequencer's, whose window after 16·r steps holds the array from word 16·r on. -/
theorem compressionIsTheArrayFormsLastWords : Obligations.CompressionIsTheArrayFormsLastWords := by
  intro n j hj
  constructor
  · intro r
    obtain ⟨hw, _, _⟩ := holdsArray_runSteps (16 * r) (loadWindow n) n 0 (holdsArray_loadWindow n)
    have hindex : 0 + 16 * r + (73 + j) = 89 + 16 * r - 16 + j := by omega
    simp only [compressF_eq, lastWords_getElem]
    rw [hw (73 + j) (by omega), hindex, Nat.zero_add]
  · exact lastWords_getElem n j hj

/-- Settles O29: the step word by word, and the published values evaluated. -/
theorem stepAndRoundConstantsAreThePublishedOnes : Obligations.StepAndRoundConstantsAreThePublishedOnes := by
  refine ⟨fun w s k => ⟨stepFn_getElem_last w s k, stepFn_getElem_of_lt w s k⟩, ?_, rfl, fun _ => rfl,
    by decide, by decide, by decide⟩
  rw [stepFn_getElem_last]
  decide

/-- Settles O31: the operand check decides between the two completions. -/
theorem loadNLoadsTheWindow : Obligations.LoadNLoadsTheWindow := by
  refine ⟨by decide, fun s => ⟨fun hdefined => ?_, fun ⟨j, hj, hundefined⟩ => ?_⟩⟩
  · obtain ⟨n, hn, hvalues⟩ := exists_nBufWords s hdefined
    exact ⟨_, exec_loadN_of_nBufWords hn, hvalues, rfl, rfl, rfl⟩
  · exact recordsOnly_of_eq_undefinedInput (exec_loadN_of_undefined (nBufWords_eq_none s j hj hundefined))

/-- Settles O34: WIN_VALID decides between the two completions. -/
theorem readCvCopiesTheLastSixteenWords : Obligations.ReadCvCopiesTheLastSixteenWords := by
  refine ⟨by decide, fun s => ?_⟩
  rcases execReadCv_cases s with ⟨hwin, hexec⟩ | ⟨hwin, hexec⟩
  · exact ⟨fun _ => endsInError_of_eq_raiseError hexec, fun h => absurd (hwin.symm.trans h) Bool.false_ne_true⟩
  · refine ⟨fun h => absurd (h.symm.trans hwin) Bool.false_ne_true, fun _ => ?_⟩
    exact ⟨_, hexec, lastWords_getElem s.win.w, rfl⟩

end Sys2Proof.Machine
end

section
/-! PROOFS. COMPRESS (41_compression.md R153): one lemma per completion, and the obligation from them. -/

namespace Sys2Proof.Machine

theorem exec_compress_of_not_pbValid {s : State} (h : s.status.pbValid = false) :
    exec .compress s = raiseError .notConfigured s := by
  show execCompress s = _
  simp [execCompress, h]

theorem exec_compress_of_undefined {s : State} (hpb : s.status.pbValid = true) (hn : nBufWords s = none) :
    exec .compress s = undefinedInput s := by
  show execCompress s = _
  rw [execCompress, if_pos hpb, hn]

/-- ROUND n with a window runs 16·n sequencer steps (40_round_function.md R130). -/
theorem exec_round_of_winValid {s : State} (h : s.status.winValid = true) (n : Nat) :
    exec (.round n) s = .next { s with win := runSteps (16 * n) s.win, status := Success s.status } :=
  stepWindow_of_winValid h (16 * n)

/-- COMPRESS on defined input leaves the window of 16·r sequencer steps, and f_r(N) of R150 in CV_OUT (R152, R153). -/
theorem exec_compress_of_nBufWords {s : State} {n : Words89} (hpb : s.status.pbValid = true)
    (hn : nBufWords s = some n) :
    exec .compress s = .next { s with
      win := runSteps (16 * s.pb.r.toNat) (loadWindow n)
      cvOut := compressF s.pb.r.toNat n
      status := { Success s.status with winValid := true, cvValid := true } } := by
  show execCompress s = _
  rw [execCompress, if_pos hpb, hn, compressF_eq]
  rfl

/-- Settles O37: PB_VALID and the operand check decide between the three completions; LOAD_N sets WIN_VALID, so ROUND PB_R
runs on the loaded window the 16·PB_R sequencer steps that COMPRESS runs. -/
theorem compressComputesTheCompressionFunction : Obligations.CompressComputesTheCompressionFunction := by
  refine ⟨by decide, fun s => ⟨fun hpb => ?_, fun hpb ⟨j, hj, hundefined⟩ => ?_, fun n hpb hdefined => ?_⟩⟩
  · exact endsInError_of_eq_raiseError (exec_compress_of_not_pbValid hpb)
  · exact recordsOnly_of_eq_undefinedInput (exec_compress_of_undefined hpb (nBufWords_eq_none s j hj hundefined))
  · have hn : nBufWords s = some n := nBufWords_eq_some s n hdefined
    exact ⟨_, _, _, exec_compress_of_nBufWords hpb hn, exec_loadN_of_nBufWords hn,
      exec_round_of_winValid rfl s.pb.r.toNat, rfl⟩

end Sys2Proof.Machine
end

section
/-! SUPPORT. What CONFIGURE leaves (42_parameter_encoder.md R178): the default round count, the key bytes as an operand and
as key words, and one lemma per completion on a legal configuration. -/

namespace Sys2Proof.Machine

/-- Without a key there is no minimum round count (R171). -/
theorem defaultRounds_unkeyed (d : Nat) : defaultRounds d 0 = 40 + d / 4 := rfl

/-- With a key at least 80 rounds are made (R171). -/
theorem defaultRounds_keyed (d : Nat) {keylen : Nat} (h : 0 < keylen) :
    defaultRounds d keylen = max 80 (40 + d / 4) :=
  if_neg (Nat.ne_of_gt h)

/-- A legal digest length gives at most 168 rounds, keyed or not (R171). -/
theorem defaultRounds_le {d : Nat} (h : d ≤ 512) (keylen : Nat) : defaultRounds d keylen ≤ 168 := by
  unfold defaultRounds
  split <;> omega

/-- The rounds in force as a number (R172): on a legal digest length the default fits the register. -/
theorem toNat_roundsInForce {s : State} (h : s.cfgD.toNat ≤ 512) : (roundsInForce s).toNat =
    if s.rOverride then s.cfgR.toNat else defaultRounds s.cfgD.toNat s.cfgKeylen.toNat := by
  unfold roundsInForce
  split
  · rfl
  · have hle := defaultRounds_le h s.cfgKeylen.toNat
    rw [BitVec.toNat_ofNat, Nat.mod_eq_of_lt (by omega)]

/-- With every key byte defined, the operand of CONFIGURE is their list. -/
theorem keyBytes_eq_some {s : State} {n : Nat} {kb : Nat → Byte}
    (h : ∀ a, a < n → Memory.read s.mem (keyBase + a) = some (kb a)) :
    keyBytes s n = some ((List.range n).map kb) := by
  have hread := Memory.readBytes_eq_some s.mem ((List.range n).map kb) keyBase fun a ha => by
    simpa using h a (by simpa using ha)
  simpa [keyBytes] using hread

/-- Byte i of word j of a byte string is its byte 8·j + i, or 0 beyond its end (20_memory.md R68). -/
theorem byteOfWord_wordAt (bytes : List Byte) (j : Nat) {i : Nat} (hi : i < 8) :
    byteOfWord (wordAt bytes j) i = bytes.getD (8 * j + i) 0 :=
  byteOfWord_wordOfBytes _ i hi

/-- Byte i of key word j, the words big-endian and padded with zeros (R173). -/
theorem extractLsb'_keyWords_getElem (n : Nat) (kb : Nat → Byte) {j i : Nat} (hj : j < 8) (hi : i < 8) :
    (keyWords ((List.range n).map kb))[j].extractLsb' (8 * (7 - i)) 8 =
      if 8 * j + i < n then kb (8 * j + i) else 0 := by
  have hbyte := byteOfWord_wordAt ((List.range n).map kb) j hi
  have hlow : 56 - 8 * i = 8 * (7 - i) := by omega
  rw [byteOfWord, hlow] at hbyte
  rw [keyWords, tabulate_getElem, hbyte]
  split <;> simp [*]

theorem exec_configure_of_undefined {s : State} (hlegal : configError s = none)
    (hkey : keyBytes s s.cfgKeylen.toNat = none) : exec .configure s = undefinedInput s := by
  show execConfigure s = _
  rw [execConfigure, hlegal, hkey]

theorem exec_configure_of_keyBytes {s : State} {key : List Byte} (hlegal : configError s = none)
    (hkey : keyBytes s s.cfgKeylen.toNat = some key) :
    exec .configure s = .next { s with
      pb := { d := s.cfgD, keylen := s.cfgKeylen, l := s.cfgL, r := roundsInForce s, k := keyWords key }
      status := { Success s.status with pbValid := true } } := by
  show execConfigure s = _
  rw [execConfigure, hlegal, hkey]
  rfl

end Sys2Proof.Machine
end

section
/-! SUPPORT. The header words (42_parameter_encoder.md R177), which ENCODE_NODE writes and a node's input begins with, and
what ENCODE_NODE leaves (R179), one lemma per completion. -/

namespace Sys2Proof.Machine

section
variable {pb : ParamBlock} {level index z p : Word}

/-- The header is the 15 words of Q, the 8 key words, U and V. -/
@[simp] theorem header_length : (header pb level index z p).length = 25 := by
  simp [header, qTable]

/-- Words 0 to 14 are Q (R174). -/
theorem header_getD_q {j : Nat} (h : j < 15) : (header pb level index z p).getD j 0 = publishedQ.getD j 0 := by
  rw [header, List.append_assoc]
  exact List.getD_append publishedQ _ 0 j h

/-- Words 15 to 22 are the key words (R173). -/
theorem header_getD_key {j : Nat} (h : j < 8) : (header pb level index z p).getD (15 + j) 0 = pb.k[j] := by
  have hq : qTable.length = 15 := rfl
  simp [header, hq, h, List.getElem?_append]

/-- Word 23 is the node identifier (R175). -/
theorem header_getD_ident : (header pb level index z p).getD 23 0 = nodeIdent level index := by
  simp [header, qTable]

/-- Word 24 is the control word (R176). -/
theorem header_getD_control :
    (header pb level index z p).getD 24 0 = controlWord pb.r pb.l z p pb.keylen pb.d := by
  simp [header, qTable]

end

/-- The first 25 words of a node's input are its header (R177). -/
theorem nodeInput_getElem_header (pb : ParamBlock) (c : NodeCall) {j : Nat} (h : j < 25) :
    (nodeInput pb c)[j] = (header pb (BitVec.ofNat 64 c.level) (BitVec.ofNat 64 c.index) (BitVec.ofNat 64 c.z)
      (BitVec.ofNat 64 c.p)).getD j 0 := by
  rw [nodeInput, tabulate_getElem]
  exact List.getD_append _ _ 0 j (by simpa using h)

/-- The other words of a node's input are its data (41_compression.md R154). -/
theorem nodeInput_getElem_data (pb : ParamBlock) (c : NodeCall) {j : Nat} (h : j < 64) :
    (nodeInput pb c)[25 + j] = c.data.getD j 0 := by
  rw [nodeInput, tabulate_getElem, List.getD_append_right _ _ 0 _ (by simp)]
  simp

/-- N_BUF after ENCODE_NODE: the header in words 0 to 24, the other words as they were (R179). -/
def headerInNBuf (s : State) : Vector Elem 89 :=
  tabulate fun t =>
    if t.val < 25 then ⟨(header s.pb s.encLevel s.encIndex s.encZ s.encP).getD t.val 0, true⟩ else s.nBuf[t]

theorem headerInNBuf_getElem_header (s : State) {j : Nat} (h : j < 25) :
    (headerInNBuf s)[j] = ⟨(header s.pb s.encLevel s.encIndex s.encZ s.encP).getD j 0, true⟩ := by
  rw [headerInNBuf, tabulate_getElem, if_pos h]

theorem headerInNBuf_getElem_data (s : State) {j : Nat} (h : j < 89) (hdata : 25 ≤ j) :
    (headerInNBuf s)[j] = s.nBuf[j] := by
  rw [headerInNBuf, tabulate_getElem, if_neg (Nat.not_lt.mpr hdata)]
  rfl

/-- The ranges of R179. -/
theorem encodeArgsInRange_iff (s : State) : encodeArgsInRange s = true ↔
    s.encLevel.toNat ≤ 255 ∧ s.encIndex.toNat < 2 ^ 56 ∧ s.encZ.toNat ≤ 1 ∧ s.encP.toNat ≤ 4096 := by
  simp only [encodeArgsInRange, Bool.and_eq_true, decide_eq_true_eq, and_assoc]

theorem exec_encodeNode_of_not_pbValid {s : State} (h : s.status.pbValid = false) :
    exec .encodeNode s = raiseError .notConfigured s := by
  show execEncodeNode s = _
  simp [execEncodeNode, h]

theorem exec_encodeNode_of_not_inRange {s : State} (hpb : s.status.pbValid = true)
    (hrange : ¬encodeArgsInRange s = true) : exec .encodeNode s = raiseError .argRange s := by
  show execEncodeNode s = _
  rw [execEncodeNode, if_pos hpb, if_neg hrange]

theorem exec_encodeNode_of_inRange {s : State} (hpb : s.status.pbValid = true) (hrange : encodeArgsInRange s = true) :
    exec .encodeNode s = .next { s with nBuf := headerInNBuf s, status := Success s.status } := by
  show execEncodeNode s = _
  rw [execEncodeNode, if_pos hpb, if_pos hrange]
  rfl

end Sys2Proof.Machine
end

section
/-! SUPPORT. What leaves the parameter block unchanged (42_parameter_encoder.md R180): every move outside the core, and
every command but a CONFIGURE that ends in success and SOFT_RESET. -/

namespace Sys2Proof.Machine

@[simp] theorem writeElement_pb (v : Word) (s : State) (e : Element) : (writeElement v s e).pb = s.pb := by
  cases e <;> rfl

@[simp] theorem requireHost_pb (c : Bool) (s : State) : (requireHost c s).pb = s.pb := by
  cases c <;> rfl

@[simp] theorem waitTurn_pb (s : State) : (waitTurn s).pb = s.pb := by
  unfold waitTurn
  split <;> rfl

@[simp] theorem recordFault_pb (f : ModelFault) (s : State) : (recordFault f s).pb = s.pb := by
  rw [recordFault_eq]

@[simp] theorem recordFaults_pb (fs : List ModelFault) (s : State) : (recordFaults fs s).pb = s.pb := by
  rw [recordFaults_eq]

@[simp] theorem hostWrite_pb (off width : Nat) (v : Word) (s : State) : (hostWrite off width v s).pb = s.pb := by
  rcases hostWrite_cases off width v s with ⟨_, e, _, h⟩ | ⟨_, h⟩ <;> simp [h]

@[simp] theorem hostRead_pb (off width : Nat) (s : State) : (hostRead off width s).pb = s.pb := by
  rcases hostRead_cases off width s with ⟨_, h⟩ | ⟨_, h⟩ <;> simp [h]

/-- A command other than CONFIGURE and SOFT_RESET keeps the parameter block, however it ends. -/
theorem exec_keeps_pb {i : Instr} (hconfigure : i ≠ .configure) (hsoftReset : i ≠ .softReset) (s : State) :
    ∃ t, exec i s = .next t ∧ t.pb = s.pb := by
  cases i with
  | configure => exact absurd rfl hconfigure
  | softReset => exact absurd rfl hsoftReset
  | nop => exact ⟨_, rfl, rfl⟩
  | encodeNode => rcases execEncodeNode_cases s with ⟨_, h⟩ | ⟨_, _, h⟩ | ⟨_, _, h⟩ <;> exact ⟨_, h, rfl⟩
  | compress =>
    rcases execCompress_cases s with ⟨_, h⟩ | ⟨_, _, h⟩ | ⟨_, _, _, h⟩
    · exact ⟨_, h, rfl⟩
    · exact ⟨_, h, recordFault_pb _ s⟩
    · exact ⟨_, h, rfl⟩
  | hash =>
    rcases execHash_cases s with ⟨_, h⟩ | ⟨_, _, h⟩ | ⟨_, _, _, h⟩ | ⟨_, _, _, _, h⟩
    · exact ⟨_, h, rfl⟩
    · exact ⟨_, h, rfl⟩
    · exact ⟨_, h, recordFault_pb _ s⟩
    · exact ⟨_, h, rfl⟩
  | loadN =>
    rcases execLoadN_cases s with ⟨_, h⟩ | ⟨_, _, h⟩
    · exact ⟨_, h, recordFault_pb _ s⟩
    · exact ⟨_, h, rfl⟩
  | step n => rcases stepWindow_cases n s with ⟨_, h⟩ | ⟨_, h⟩ <;> exact ⟨_, h, rfl⟩
  | round n => rcases stepWindow_cases (16 * n) s with ⟨_, h⟩ | ⟨_, h⟩ <;> exact ⟨_, h, rfl⟩
  | readCv => rcases execReadCv_cases s with ⟨_, h⟩ | ⟨_, h⟩ <;> exact ⟨_, h, rfl⟩

/-- CONFIGURE keeps the parameter block unless it ends in success, with PB_VALID = 1 (R178). -/
theorem exec_configure_pb_cases (s : State) : ∃ t, exec .configure s = .next t ∧
    (t.pb = s.pb ∨ t.status = { Success s.status with pbValid := true }) := by
  rcases execConfigure_cases s with ⟨_, _, h⟩ | ⟨_, _, h⟩ | ⟨_, _, _, h⟩
  · exact ⟨_, h, .inl rfl⟩
  · exact ⟨_, h, .inl (recordFault_pb _ s)⟩
  · exact ⟨_, h, .inr rfl⟩

/-- A command that changes the parameter block is a CONFIGURE that ends in success or a SOFT_RESET (R180). -/
theorem pb_eq_or_of_exec {i : Instr} {s t : State} (h : exec i s = .next t) :
    t.pb = s.pb ∨
    (i = .configure ∧ t.status.busy = false ∧ t.status.err = false ∧ t.status.pbValid = true) ∨
    (i = .softReset ∧ t.status.busy = false ∧ t.status.err = false ∧ t.status.pbValid = false) := by
  by_cases hconfigure : i = .configure
  · subst hconfigure
    obtain ⟨u, hu, hcases⟩ := exec_configure_pb_cases s
    obtain rfl := Host.Outcome.next.inj (hu.symm.trans h)
    exact hcases.imp_right fun hstatus => .inl (by simp [hstatus, Success])
  · by_cases hsoftReset : i = .softReset
    · subst hsoftReset
      obtain rfl := Host.Outcome.next.inj h
      exact .inr (.inr ⟨rfl, rfl, rfl, rfl⟩)
    · obtain ⟨u, hu, hpb⟩ := exec_keeps_pb hconfigure hsoftReset s
      obtain rfl := Host.Outcome.next.inj (hu.symm.trans h)
      exact .inl hpb

end Sys2Proof.Machine
end

section
/-! PROOFS. The parameter encoder (42_parameter_encoder.md): the default round count, CONFIGURE, ENCODE_NODE, and the
parameter block between them. -/

namespace Sys2Proof.Machine

/-- Settles O38: the two cases of the default, and its bounds from them. -/
theorem defaultRoundCountIsThePublishedOne : Obligations.DefaultRoundCountIsThePublishedOne := by
  refine ⟨defaultRounds_unkeyed, fun d _ h => defaultRounds_keyed d h, fun d _ hd => ?_, fun d keylen _ hd h => ?_⟩
  · exact ⟨defaultRounds_unkeyed d ▸ Nat.le_add_right 40 _, defaultRounds_le hd 0⟩
  · exact ⟨defaultRounds_keyed d h ▸ Nat.le_max_left 80 _, defaultRounds_le hd keylen⟩

/-- Settles O40: a legal configuration passes every check, so the operand check on the key bytes decides between the two
completions. -/
theorem configureLatchesTheParameterBlock : Obligations.ConfigureLatchesTheParameterBlock := by
  intro s hlegal
  have hchecks : configError s = none := (configError_eq_none_iff s).mpr hlegal
  obtain ⟨_, hd, _⟩ := hlegal
  refine ⟨fun ⟨a, ha, hundefined⟩ => ?_, fun kb hdefined => ?_⟩
  · have hkey : keyBytes s s.cfgKeylen.toNat = none := Memory.readBytes_eq_none s.mem _ keyBase a ha hundefined
    exact recordsOnly_of_eq_undefinedInput (exec_configure_of_undefined hchecks hkey)
  · have hexec := exec_configure_of_keyBytes hchecks (keyBytes_eq_some hdefined)
    exact ⟨_, hexec, rfl, rfl, rfl, toNat_roundsInForce hd,
      fun j hj i hi => extractLsb'_keyWords_getElem _ kb hj hi, rfl⟩

/-- Settles O43: PB_VALID and the ranges decide between the three completions; the header's layout gives both N_BUF and the
node input. -/
theorem encodeNodeWritesTheHeader : Obligations.EncodeNodeWritesTheHeader := by
  refine ⟨by decide, fun pb c => ⟨rfl, fun j h => ?_, fun j h => ?_, ?_, ?_, fun j h => nodeInput_getElem_data pb c h⟩,
    fun s => ⟨fun hpb => ?_, fun hpb hrange => ?_, fun hpb hrange => ?_⟩⟩
  · rw [nodeInput_getElem_header pb c (by omega), header_getD_q h]
  · rw [nodeInput_getElem_header pb c (by omega), header_getD_key h]
  · rw [nodeInput_getElem_header pb c (by omega), header_getD_ident, nodeIdent]
  · rw [nodeInput_getElem_header pb c (by omega), header_getD_control]
  · exact endsInError_of_eq_raiseError (exec_encodeNode_of_not_pbValid hpb)
  · exact endsInError_of_eq_raiseError (exec_encodeNode_of_not_inRange hpb (mt (encodeArgsInRange_iff s).mp hrange))
  · refine ⟨_, exec_encodeNode_of_inRange hpb ((encodeArgsInRange_iff s).mpr hrange), fun j h => ?_, fun j h => ?_, ?_, ?_,
      fun j h hdata => headerInNBuf_getElem_data s h hdata, rfl⟩
    · rw [headerInNBuf_getElem_header s (by omega), header_getD_q h]
    · rw [headerInNBuf_getElem_header s (by omega), header_getD_key h]
    · rw [headerInNBuf_getElem_header s (by omega), header_getD_ident, nodeIdent]
    · rw [headerInNBuf_getElem_header s (by omega), header_getD_control]

/-- Settles O44: of the moves outside the core only the reset event touches the parameter block, and of the core's steps
only the two commands of `pb_eq_or_of_exec`. -/
theorem parameterBlockIsImmutable : Obligations.ParameterBlockIsImmutable := by
  intro s t h
  rcases step_next_cases s t h with ⟨off, width, v, rest, _, rfl⟩ | ⟨off, width, rest, _, rfl⟩ | ⟨rest, _, rfl⟩ |
    ⟨rest, _, rfl⟩ | ⟨code, rest, _, rfl⟩ | ⟨rest, hmoves, hidle, _⟩ | ⟨rest, _, _, rfl⟩ | ⟨_, _, _, rfl⟩ |
    ⟨rest, hmoves, hbusy, hfault, hcore⟩
  · exact .inl (hostWrite_pb off width v (s.withMoves rest))
  · exact .inl (hostRead_pb off width (s.withMoves rest))
  · exact .inl (waitTurn_pb (s.withMoves rest))
  · exact .inl (requireHost_pb _ (s.withMoves rest))
  · exact .inl (requireHost_pb _ (s.withMoves rest))
  · exact .inr (.inl ⟨by simp [hmoves], hidle⟩)
  · exact .inl rfl
  · exact .inl rfl
  · rcases hcore with ⟨i, hdecode, hexec⟩ | ⟨_, _, herror⟩
    · have hturn : s.host.moves = [] ∨ s.host.moves.head? = some .coreTurn := by
        rcases hmoves with hmoves | ⟨hmoves, _⟩ <;> simp [hmoves]
      have hruns : CoreRuns s i := ⟨hbusy, hfault, hturn, hdecode⟩
      rcases pb_eq_or_of_exec hexec.symm with hpb | ⟨rfl, hend⟩ | ⟨rfl, hend⟩
      · exact .inl hpb
      · exact .inr (.inr (.inl ⟨hruns, hend⟩))
      · exact .inr (.inr (.inr ⟨hruns, hend⟩))
    · obtain rfl := Host.Outcome.next.inj herror
      exact .inl rfl

end Sys2Proof.Machine
end

section
/-! SUPPORT. The bits of a bit string, of the words cut from it, and of the byte strings and chaining values it is made of
(00_scope.md R15, 43_tree_scheduler.md R200). -/

namespace Sys2Proof.Machine

theorem numberOfBits_concat (x : List Bool) (b : Bool) : numberOfBits (x ++ [b]) = Nat.bit b (numberOfBits x) := by
  rw [Nat.bit_val, numberOfBits, List.foldl_append]
  rfl

/-- The last bit of a bit string is the lowest of its number. -/
theorem testBit_numberOfBits (x : List Bool) (i : Nat) : (numberOfBits x).testBit i = x.reverse[i]?.getD false := by
  induction x using List.reverseRecOn generalizing i with
  | nil => simp [numberOfBits]
  | append_singleton x b ih =>
    rw [numberOfBits_concat, List.reverse_concat]
    cases i with
    | zero => simp
    | succ i => simp [Nat.testBit_bit_succ, ih]

/-- Bit n of word t of a bit string is its bit 64·t + n. -/
theorem getMsbD_wordOfBits {x : List Bool} {t n : Nat} (ht : 64 * t + 64 ≤ x.length) (hn : n < 64) :
    (wordOfBits x t).getMsbD n = x[64 * t + n]?.getD false := by
  have hlen : (List.take 64 (List.drop (64 * t) x)).length = 64 := by simp; omega
  have hlast : 64 - 1 - (64 - 1 - n) = n := by omega
  rw [wordOfBits, BitVec.getMsbD, BitVec.getLsbD_ofNat, testBit_numberOfBits, List.getElem?_reverse (by omega), hlen,
    hlast, List.getElem?_take_of_lt hn, List.getElem?_drop, decide_eq_true hn, decide_eq_true (by omega)]
  rfl

/-- A block's words are the words that have its bits. -/
theorem wordsOfBits_eq {x : List Bool} {ws : List Word} (hlen : x.length = 64 * ws.length)
    (hbits : ∀ t (ht : t < ws.length) n, n < 64 → ws[t].getMsbD n = x[64 * t + n]?.getD false) :
    wordsOfBits x = ws := by
  refine List.ext_getElem (by simp [wordsOfBits, hlen]) fun t _ ht => BitVec.eq_of_getMsbD_eq fun n hn => ?_
  rw [hbits t ht n hn, ← getMsbD_wordOfBits (by omega) hn]
  simp [wordsOfBits]

/-- Element r of part q of a string of parts of k elements each. -/
theorem getElem?_flatMap_of_length {α β : Type} {f : α → List β} {k : Nat} (hf : ∀ a, (f a).length = k) (l : List α)
    (q : Nat) {r : Nat} (hr : r < k) : (l.flatMap f)[k * q + r]? = l[q]?.bind fun a => (f a)[r]? := by
  induction l generalizing q with
  | nil => simp
  | cons a l ih =>
    rw [List.flatMap_cons]
    cases q with
    | zero => simp [List.getElem?_append, hf, hr]
    | succ q =>
      rw [List.getElem?_append_right (by rw [hf, Nat.mul_succ]; omega), List.getElem?_cons_succ, ← ih, hf]
      congr 1
      rw [Nat.mul_succ]
      omega

@[simp] theorem bitsMsbFirst_length {n : Nat} (v : BitVec n) : (bitsMsbFirst v).length = n := by
  simp [bitsMsbFirst]

theorem bitsMsbFirst_getElem? {n t : Nat} (v : BitVec n) (ht : t < n) : (bitsMsbFirst v)[t]? = some (v.getMsbD t) := by
  simp [bitsMsbFirst, ht]

@[simp] theorem bitsOfBytes_length (bytes : List Byte) : (bitsOfBytes bytes).length = 8 * bytes.length := by
  simp [bitsOfBytes, List.length_flatMap, Nat.mul_comm]

/-- Byte q of a byte string stands in bits 8·q to 8·q + 7 of its bit string (R200). -/
theorem bitsOfBytes_getElem? (bytes : List Byte) (q : Nat) {r : Nat} (hr : r < 8) :
    (bitsOfBytes bytes)[8 * q + r]?.getD false = (bytes.getD q 0).getMsbD r := by
  rw [bitsOfBytes, getElem?_flatMap_of_length bitsMsbFirst_length bytes q hr]
  cases h : bytes[q]? <;> simp [h, bitsMsbFirst_getElem? _ hr]

@[simp] theorem bitsOfCv_length (cv : Cv) : (bitsOfCv cv).length = 1024 := by
  simp [bitsOfCv, List.length_flatMap]

/-- Word q of a chaining value stands in bits 64·q to 64·q + 63 of its bit string (00_scope.md R15). -/
theorem bitsOfCv_getElem? (cv : Cv) {q r : Nat} (hq : q < 16) (hr : r < 64) :
    (bitsOfCv cv)[64 * q + r]? = some (cv[q].getMsbD r) := by
  rw [bitsOfCv, getElem?_flatMap_of_length bitsMsbFirst_length cv.toList q hr]
  simp [hq, bitsMsbFirst_getElem? _ hr]

/-- A chaining value is read back from its bit string (00_scope.md R15). -/
theorem cvOfBits_bitsOfCv (cv : Cv) : cvOfBits (bitsOfCv cv) = cv := by
  refine Vector.ext fun q hq => BitVec.eq_of_getMsbD_eq fun n hn => ?_
  rw [cvOfBits, tabulate_getElem, getMsbD_wordOfBits (by rw [bitsOfCv_length]; omega) hn, bitsOfCv_getElem? cv hq hn]
  rfl

/-- The bit string of a level's chaining values (43_tree_scheduler.md R203). -/
def bitsOfCvs (level : List Cv) : List Bool := level.flatMap bitsOfCv

@[simp] theorem bitsOfCvs_length (level : List Cv) : (bitsOfCvs level).length = 1024 * level.length := by
  simp [bitsOfCvs, List.length_flatMap, Nat.mul_comm]

theorem bitsOfCvs_singleton (cv : Cv) : bitsOfCvs [cv] = bitsOfCv cv := List.append_nil _

/-- Word q of chaining value m stands in bits 1024·m + 64·q to 1024·m + 64·q + 63; beyond the last value all bits are 0, as
in the zero chaining values of 44_cv_accumulator.md R243. -/
theorem bitsOfCvs_getElem? (level : List Cv) (m : Nat) {q r : Nat} (hq : q < 16) (hr : r < 64) :
    (bitsOfCvs level)[1024 * m + (64 * q + r)]?.getD false = (cvOrZero level m)[q].getMsbD r := by
  rw [bitsOfCvs, getElem?_flatMap_of_length bitsOfCv_length level m (by omega)]
  cases h : level[m]? with
  | none => simp [cvOrZero, zeroCv, h]
  | some cv => simp [cvOrZero, h, bitsOfCv_getElem? cv hq hr]

/-- Bit n of word j of a byte string (20_memory.md R68). -/
theorem getMsbD_wordAt (bytes : List Byte) (j : Nat) {n : Nat} (hn : n < 64) :
    (wordAt bytes j).getMsbD n = (bytes.getD (8 * j + n / 8) 0).getMsbD (n % 8) := by
  have hbyte : 7 - (64 - 1 - n) / 8 = n / 8 := by omega
  have hbit : (64 - 1 - n) % 8 = 8 - 1 - n % 8 := by omega
  have hlow : n % 8 < 8 := by omega
  rw [BitVec.getMsbD, BitVec.getMsbD, wordAt, getLsbD_wordOfBytes _ _ (by omega), hbyte, hbit]
  simp only [hn, hlow, decide_true]

end Sys2Proof.Machine
end

section
/-! SUPPORT. The data of one level of the tree: the blocks of PAD (43_tree_scheduler.md R202) are the groups of bytes or of
chaining values that the accumulator reads (44_cv_accumulator.md R242, R243, R245). A PAR level reads groups of g = 4
chaining values' size, the SEQ level of g = 3. -/

namespace Sys2Proof.Machine

/-- Block D_i of PAD(X, cap) with its padding count p_i (R202). -/
def padBlock (x : List Bool) (cap i : Nat) : List Bool × Nat :=
  let j := padCount x.length cap
  let fill := j * cap - x.length
  (((x ++ List.replicate fill false).drop (cap * i)).take cap, if i + 1 < j then 0 else fill)

theorem padBlocks_eq (x : List Bool) (cap : Nat) :
    padBlocks x cap = (List.range (padCount x.length cap)).map (padBlock x cap) := rfl

theorem padBlock_snd (x : List Bool) (cap i : Nat) : (padBlock x cap i).2 =
    if i + 1 < padCount x.length cap then 0 else padCount x.length cap * cap - x.length := rfl

@[simp] theorem padBlocks_length (x : List Bool) (cap : Nat) : (padBlocks x cap).length = padCount x.length cap := by
  simp [padBlocks_eq]

theorem zipIdx_padBlocks (x : List Bool) (cap : Nat) :
    (padBlocks x cap).zipIdx = (List.range (padCount x.length cap)).map fun i => (padBlock x cap i, i) :=
  List.ext_getElem (by simp) fun i _ _ => by simp [padBlocks_eq]

/-- There is a block even for the empty string (R202). -/
theorem padCount_pos (len cap : Nat) : 0 < padCount len cap := Nat.le_max_left 1 _

/-- A block holds the bits of X in its place, and zeros beyond the end of X (R202). -/
theorem padBlock_getElem? (x : List Bool) {cap n : Nat} (i : Nat) (hn : n < cap) :
    (padBlock x cap i).1[n]?.getD false = x[cap * i + n]?.getD false := by
  rw [padBlock, List.getElem?_take_of_lt hn, List.getElem?_drop, List.getElem?_append]
  split
  · rfl
  · rename_i hend
    simp only [List.getElem?_replicate, List.getElem?_eq_none (Nat.not_lt.mp hend)]
    split <;> rfl

/-- Bit n of word t of the message data that starts at byte `first` (44_cv_accumulator.md R242). -/
theorem messageData_getMsbD (msg : List Byte) (first words : Nat) {t n : Nat}
    (ht : t < (messageData msg first words).length) (hn : n < 64) :
    (messageData msg first words)[t].getMsbD n = (bitsOfBytes msg)[8 * first + (64 * t + n)]?.getD false := by
  have hindex : 8 * first + (64 * t + n) = 8 * (first + (8 * t + n / 8)) + n % 8 := by omega
  have hchunk : 8 * t + n / 8 < 8 * words := by
    simp [messageData, wordsOf] at ht
    omega
  rw [hindex, bitsOfBytes_getElem? msg _ (by omega)]
  simp [messageData, wordsOf, getMsbD_wordAt _ _ hn, List.getElem?_take_of_lt hchunk]

@[simp] theorem messageData_length (msg : List Byte) (first words : Nat) :
    (messageData msg first words).length = words := by
  simp [messageData, wordsOf]

@[simp] theorem groupData_length (level : List Cv) (first group : Nat) :
    (groupData level first group).length = 16 * group := by
  simp [groupData, List.length_flatMap, Nat.mul_comm]

/-- Bit n of word t of the group that starts at chaining value `first` (44_cv_accumulator.md R243). -/
theorem groupData_getMsbD (level : List Cv) (first group : Nat) {t n : Nat}
    (ht : t < (groupData level first group).length) (hn : n < 64) :
    (groupData level first group)[t].getMsbD n = (bitsOfCvs level)[1024 * first + (64 * t + n)]?.getD false := by
  have hindex : 1024 * first + (64 * t + n) = 1024 * (first + t / 16) + (64 * (t % 16) + n) := by omega
  have hword : (groupData level first group)[16 * (t / 16) + t % 16]? =
      some ((cvOrZero level (first + t / 16))[t % 16]'(by omega)) := by
    rw [groupData_length] at ht
    have hgroup : t / 16 < group := by omega
    rw [groupData, getElem?_flatMap_of_length (k := 16) (by simp) _ _ (by omega)]
    simp [hgroup, Nat.mod_lt]
  rw [Nat.div_add_mod, List.getElem?_eq_getElem ht, Option.some.injEq] at hword
  rw [hindex, bitsOfCvs_getElem? level _ (by omega) hn, hword]

/-- The string X of the level now being computed: the message at level 1, else the level below (43_tree_scheduler.md
R205). -/
def levelBits (msg : List Byte) (acc : Accumulator) : List Bool :=
  if acc.curLevel = 1 then bitsOfBytes msg else bitsOfCvs acc.lvlIn

/-- The data words that node i of the level takes from X, in groups of g chaining values' size: those of `parNode` with
g = 4 and of `seqNode` with g = 3. -/
def levelData (msg : List Byte) (acc : Accumulator) (g i : Nat) : List Word :=
  if acc.curLevel = 1 then messageData msg (128 * g * i) (16 * g) else groupData acc.lvlIn (g * i) g

/-- The padding count of that node. -/
def levelPadding (msg : List Byte) (acc : Accumulator) (g i : Nat) : Nat :=
  if acc.curLevel = 1 then messagePadding msg (128 * g * i) (128 * g) else groupPadding acc.lvlIn (g * i) g

/-- The number of nodes of the level, in groups of g. -/
def levelNodes (msg : List Byte) (acc : Accumulator) (g : Nat) : Nat :=
  if acc.curLevel = 1 then max 1 (ceilDiv msg.length (128 * g)) else ceilDiv acc.lvlIn.length g

theorem levelData_length (msg : List Byte) (acc : Accumulator) (g i : Nat) :
    (levelData msg acc g i).length = 16 * g := by
  unfold levelData
  split <;> simp

theorem levelData_getMsbD (msg : List Byte) (acc : Accumulator) (g i : Nat) {t n : Nat}
    (ht : t < (levelData msg acc g i).length) (hn : n < 64) :
    (levelData msg acc g i)[t].getMsbD n = (levelBits msg acc)[1024 * g * i + (64 * t + n)]?.getD false := by
  unfold levelData levelBits at *
  split
  · have hfirst : 1024 * g * i = 8 * (128 * g * i) := by ring
    simpa [*] using messageData_getMsbD msg (128 * g * i) (16 * g) (by simpa [*] using ht) hn
  · have hfirst : 1024 * g * i = 1024 * (g * i) := by ring
    simpa [*] using groupData_getMsbD acc.lvlIn (g * i) g (by simpa [*] using ht) hn

section
variable {msg : List Byte} {acc : Accumulator} {g i : Nat} (hg : g = 3 ∨ g = 4)
include hg

/-- A block is full (R202). -/
theorem padBlock_length {x : List Bool} (hi : i < padCount x.length (1024 * g)) :
    (padBlock x (1024 * g) i).1.length = 1024 * g := by
  simp only [padBlock, List.length_take, List.length_drop, List.length_append, List.length_replicate]
  rcases hg with rfl | rfl <;> simp only [padCount, ceilDiv] at * <;> omega

/-- The words of block i are the data words of node i. -/
theorem wordsOfBits_padBlock (hi : i < padCount (levelBits msg acc).length (1024 * g)) :
    wordsOfBits (padBlock (levelBits msg acc) (1024 * g) i).1 = levelData msg acc g i := by
  refine wordsOfBits_eq ?_ fun t ht n hn => ?_
  · rw [padBlock_length hg hi, levelData_length]
    ring
  · rw [levelData_getMsbD msg acc g i ht hn, padBlock_getElem? _ _ (by rw [levelData_length] at ht; omega)]

/-- The padding count of block i is that of node i. -/
theorem padBlock_padding (hi : i < padCount (levelBits msg acc).length (1024 * g)) :
    (padBlock (levelBits msg acc) (1024 * g) i).2 = levelPadding msg acc g i := by
  rw [padBlock_snd]
  unfold levelPadding levelBits at *
  by_cases hlevel : acc.curLevel = 1
  · rw [if_pos hlevel] at hi
    simp only [if_pos hlevel, bitsOfBytes_length, padCount, ceilDiv, messagePadding] at *
    rcases hg with rfl | rfl <;> split <;> omega
  · rw [if_neg hlevel] at hi
    simp only [if_neg hlevel, bitsOfCvs_length, padCount, ceilDiv, groupPadding] at *
    rcases hg with rfl | rfl <;> split <;> omega

/-- The blocks of a level are as many as its nodes: a level above the first has a chaining value to take in. -/
theorem padCount_levelBits (hin : acc.curLevel ≠ 1 → acc.lvlIn ≠ []) :
    padCount (levelBits msg acc).length (1024 * g) = levelNodes msg acc g := by
  unfold levelBits levelNodes
  by_cases hlevel : acc.curLevel = 1
  · simp only [hlevel, if_true, bitsOfBytes_length, padCount, ceilDiv]
    rcases hg with rfl | rfl <;> omega
  · have hpos : 0 < acc.lvlIn.length := List.length_pos_iff.mpr (hin hlevel)
    simp only [hlevel, if_false, bitsOfCvs_length, padCount, ceilDiv]
    rcases hg with rfl | rfl <;> omega

end

end Sys2Proof.Machine
end

section
/-! SUPPORT. The accumulator computes the levels of TOP (44_cv_accumulator.md R249): a PAR level leaves in LVL_OUT the
chaining values of `parCalls`, the SEQ pass leaves `seq` in SEQ_CV, and the run follows the loop of `topFrom`. -/

namespace Sys2Proof.Machine

/-- The accumulator before a level: its input is the level below, and nothing of the level is computed yet (R241, R244). -/
structure LevelStart (acc : Accumulator) : Prop where
  levelPos : 1 ≤ acc.curLevel
  hasInput : acc.curLevel ≠ 1 → acc.lvlIn ≠ []
  lvlOutEmpty : acc.lvlOut = []
  seqCvZero : acc.seqCv = zeroCv

theorem levelStart_accStart : LevelStart accStart :=
  ⟨Nat.le_refl 1, fun h => absurd rfl h, rfl, rfl⟩

section
variable (pb : ParamBlock) (msg : List Byte)

/-- The calls of PAR are the nodes of the accumulator's PAR level (43_tree_scheduler.md R203, R242, R243). -/
theorem parCalls_levelBits {acc : Accumulator} (h : LevelStart acc) :
    parCalls (levelBits msg acc) acc.curLevel = (List.range (parNodes msg acc)).map (parNode msg acc) := by
  have hcount : padCount (levelBits msg acc).length 4096 = parNodes msg acc := padCount_levelBits (.inr rfl) h.hasInput
  simp only [parCalls, zipIdx_padBlocks, padBlocks_length, List.map_map, hcount]
  refine List.map_congr_left fun i hi => ?_
  rw [List.mem_range, ← hcount] at hi
  have hdata : wordsOfBits (padBlock (levelBits msg acc) 4096 i).1 = levelData msg acc 4 i :=
    wordsOfBits_padBlock (.inr rfl) hi
  have hpadding : (padBlock (levelBits msg acc) 4096 i).2 = levelPadding msg acc 4 i := padBlock_padding (.inr rfl) hi
  simp only [Function.comp_apply, hdata, hpadding]
  rfl

/-- Appending to LVL_OUT node by node (R244): no node reads LVL_OUT. -/
theorem foldl_accAppend (nodes : List Nat) (acc : Accumulator) :
    nodes.foldl (fun a i => accAppend a (compressNode pb (parNode msg a i))) acc =
      { acc with lvlOut := acc.lvlOut ++ nodes.map fun i => compressNode pb (parNode msg acc i) } := by
  induction nodes generalizing acc with
  | nil => simp
  | cons i nodes ih =>
    rw [List.foldl_cons, ih, List.map_cons, List.append_cons]
    rfl

/-- A PAR level changes LVL_OUT alone, and leaves there the outputs of the calls of PAR (R244). -/
theorem accPar_eq {acc : Accumulator} (h : LevelStart acc) : accPar pb msg acc =
    { acc with lvlOut := (parCalls (levelBits msg acc) acc.curLevel).map (compressNode pb) } := by
  rw [accPar, foldl_accAppend, h.lvlOutEmpty, List.nil_append, parCalls_levelBits msg h, List.map_map]
  rfl

theorem par_eq (x : List Bool) (level : Nat) :
    par pb x level = bitsOfCvs ((parCalls x level).map (compressNode pb)) := by
  rw [par, bitsOfCvs, List.flatMap_map]

theorem parCalls_length (x : List Bool) (level : Nat) : (parCalls x level).length = padCount x.length 4096 := by
  simp [parCalls]

theorem parCalls_ne_nil (x : List Bool) (level : Nat) : parCalls x level ≠ [] :=
  List.ne_nil_of_length_pos (parCalls_length x level ▸ padCount_pos _ _)

@[simp] theorem par_length (x : List Bool) (level : Nat) :
    (par pb x level).length = 1024 * (parCalls x level).length := by
  simp [par_eq]

/-- After the level barrier the next level can start (R244). -/
theorem levelStart_accAdvance {acc : Accumulator} (h : LevelStart acc) : LevelStart (accAdvance (accPar pb msg acc)) := by
  rw [accPar_eq pb msg h]
  exact ⟨Nat.le_add_left 1 _, fun _ => mt List.map_eq_nil_iff.mp (parCalls_ne_nil _ _), rfl, h.seqCvZero⟩

/-- The next level works on the output of PAR (43_tree_scheduler.md R205). -/
theorem levelBits_accAdvance {acc : Accumulator} (h : LevelStart acc) :
    levelBits msg (accAdvance (accPar pb msg acc)) = par pb (levelBits msg acc) acc.curLevel := by
  have hlevel : acc.curLevel + 1 ≠ 1 := Nat.ne_of_gt (Nat.lt_succ_of_le h.levelPos)
  rw [accPar_eq pb msg h, par_eq, levelBits, accAdvance, if_neg hlevel]

/-- A sequential pass runs over its blocks, each with its index (43_tree_scheduler.md R204). -/
theorem seqFrom_eq_foldl (level j : Nat) (blocks : List (List Bool × Nat)) (i : Nat) (cv : Cv) :
    seqFrom pb level j blocks i cv =
      (blocks.zipIdx i).foldl (fun cv b => compressNode pb (seqCall level j b.2 cv b.1)) cv := by
  induction blocks generalizing i cv with
  | nil => rfl
  | cons b blocks ih => rw [seqFrom, ih, List.zipIdx_cons, List.foldl_cons]

/-- The node of the accumulator's SEQ pass with SEQ_CV = cv is the call of SEQ with predecessor cv (R245). -/
theorem seqNode_eq {acc : Accumulator} (h : LevelStart acc) (cv : Cv) {i : Nat} (hi : i < seqNodes msg acc) :
    seqNode msg { acc with seqCv := cv } i =
      seqCall acc.curLevel (seqNodes msg acc) i cv (padBlock (levelBits msg acc) 3072 i) := by
  have hcount : padCount (levelBits msg acc).length 3072 = seqNodes msg acc := padCount_levelBits (.inl rfl) h.hasInput
  rw [← hcount] at hi
  have hdata : wordsOfBits (padBlock (levelBits msg acc) 3072 i).1 = levelData msg acc 3 i :=
    wordsOfBits_padBlock (.inl rfl) hi
  have hpadding : (padBlock (levelBits msg acc) 3072 i).2 = levelPadding msg acc 3 i := padBlock_padding (.inl rfl) hi
  rw [seqCall, hdata, hpadding]
  rfl

/-- SEQ_CV after node i of the SEQ pass, from its value before the node (R245). -/
def nextSeqCv (acc : Accumulator) (cv : Cv) (i : Nat) : Cv := compressNode pb (seqNode msg { acc with seqCv := cv } i)

/-- The SEQ pass changes SEQ_CV alone (R245). -/
theorem accSeq_eq (acc : Accumulator) : accSeq pb msg acc =
    { acc with seqCv := (List.range (seqNodes msg acc)).foldl (nextSeqCv pb msg acc) acc.seqCv } :=
  List.foldl_hom (fun cv => ({ acc with seqCv := cv } : Accumulator)) (g₁ := nextSeqCv pb msg acc) (init := acc.seqCv)
    fun _ _ => rfl

/-- The SEQ pass leaves SEQ(X) in SEQ_CV (R245). -/
theorem accSeq_seqCv {acc : Accumulator} (h : LevelStart acc) :
    (accSeq pb msg acc).seqCv = seq pb (levelBits msg acc) acc.curLevel := by
  have hcount : padCount (levelBits msg acc).length 3072 = seqNodes msg acc := padCount_levelBits (.inl rfl) h.hasInput
  rw [accSeq_eq, h.seqCvZero, seq, seqFrom_eq_foldl, zipIdx_padBlocks, padBlocks_length, hcount, List.foldl_map]
  exact List.foldl_ext _ _ _ fun cv i hi => by rw [nextSeqCv, seqNode_eq msg h cv (List.mem_range.mp hi)]

/-- From the start of any level on, the accumulator's root is that of the loop of TOP (R246, R249). -/
theorem accLevels_snd (n : Nat) {acc : Accumulator} (h : LevelStart acc) :
    (accLevels pb msg n acc).2 = topFrom pb n acc.curLevel (levelBits msg acc) := by
  induction n generalizing acc with
  | zero => exact accSeq_seqCv pb msg h
  | succ n ih =>
    have hout : (accPar pb msg acc).lvlOut = (parCalls (levelBits msg acc) acc.curLevel).map (compressNode pb) := by
      rw [accPar_eq pb msg h]
    have hbits : par pb (levelBits msg acc) acc.curLevel = bitsOfCvs (accPar pb msg acc).lvlOut := by rw [hout, par_eq]
    have hlevel : (accAdvance (accPar pb msg acc)).curLevel = acc.curLevel + 1 := by rw [accPar_eq pb msg h]; rfl
    by_cases hone : (accPar pb msg acc).lvlOut.length = 1
    · obtain ⟨cv, hcv⟩ := List.length_eq_one_iff.mp hone
      have hlen : (par pb (levelBits msg acc) acc.curLevel).length = 1024 := by simp [hbits, hone]
      rw [accLevels, topFrom, if_pos hone, if_pos hlen, hbits, hcv, bitsOfCvs_singleton, cvOfBits_bitsOfCv]
      rfl
    · have hlen : (par pb (levelBits msg acc) acc.curLevel).length ≠ 1024 := by
        rw [hbits, bitsOfCvs_length]
        omega
      rw [accLevels, topFrom, if_neg hone, if_neg hlen, ih (levelStart_accAdvance pb msg h), hlevel,
        levelBits_accAdvance pb msg h]

/-- The root of the accumulator's run is TOP of the message's bit string (R249). -/
theorem accRun_snd : (accRun pb msg).2 = top pb (bitsOfBytes msg) :=
  accLevels_snd pb msg pb.l.toNat levelStart_accStart

end

end Sys2Proof.Machine
end

section
/-! SUPPORT. The order of the calls of one HASH (43_tree_scheduler.md R209): every call but the last has z = 0, the last has
z = 1, and its output is the root. -/

namespace Sys2Proof.Machine

/-- The calls are some calls with z = 0 and one last call with z = 1, whose output is `root` (R209). -/
def EndsInFinalCall (pb : ParamBlock) (calls : List NodeCall) (root : Cv) : Prop :=
  ∃ earlier last, calls = earlier ++ [last] ∧ last.z = 1 ∧ (∀ c ∈ earlier, c.z = 0) ∧ compressNode pb last = root

theorem endsInFinalCall_singleton (pb : ParamBlock) {c : NodeCall} (h : c.z = 1) :
    EndsInFinalCall pb [c] (compressNode pb c) :=
  ⟨[], c, rfl, h, fun _ hc => absurd hc List.not_mem_nil, rfl⟩

theorem EndsInFinalCall.append {pb : ParamBlock} {first calls : List NodeCall} {root : Cv}
    (hfirst : ∀ c ∈ first, c.z = 0) (h : EndsInFinalCall pb calls root) : EndsInFinalCall pb (first ++ calls) root := by
  obtain ⟨earlier, last, rfl, hz, hearlier, hroot⟩ := h
  refine ⟨first ++ earlier, last, (List.append_assoc _ _ _).symm, hz, fun c hc => ?_, hroot⟩
  exact (List.mem_append.mp hc).elim (hfirst c) (hearlier c)

/-- A call of PAR has z = 1 exactly when it is its level's only one (R203). -/
theorem z_of_mem_parCalls {x : List Bool} {level : Nat} {c : NodeCall} (hc : c ∈ parCalls x level) :
    c.z = if (parCalls x level).length = 1 then 1 else 0 := by
  rw [parCalls_length, ← padBlocks_length]
  obtain ⟨b, _, rfl⟩ := List.mem_map.mp hc
  rfl

/-- The last node of a sequential pass is its only one with z = 1, and its output is the pass's result (R204). -/
theorem endsInFinalCall_seqCallsFrom (pb : ParamBlock) {level j : Nat} {blocks : List (List Bool × Nat)} {i : Nat}
    (cv : Cv) (hblocks : blocks ≠ []) (hj : i + blocks.length = j) :
    EndsInFinalCall pb (seqCallsFrom pb level j blocks i cv) (seqFrom pb level j blocks i cv) := by
  induction blocks generalizing i cv with
  | nil => exact absurd rfl hblocks
  | cons b rest ih =>
    by_cases hrest : rest = []
    · subst hrest
      exact endsInFinalCall_singleton pb (if_pos hj)
    · have hpos : 0 < rest.length := List.length_pos_iff.mpr hrest
      have hz : (seqCall level j i cv b).z = 0 := if_neg (by rw [List.length_cons] at hj; omega)
      exact .append (first := [seqCall level j i cv b]) (by simpa using hz)
        (ih _ hrest (by rw [List.length_cons] at hj; omega))

/-- The loop of TOP ends in its final call, from any level on: a PAR level with more than one node has z = 0 in all of them,
and one with a single node is the last (R205). -/
theorem endsInFinalCall_topCallsFrom (pb : ParamBlock) (n level : Nat) (x : List Bool) :
    EndsInFinalCall pb (topCallsFrom pb n level x) (topFrom pb n level x) := by
  induction n generalizing level x with
  | zero =>
    have hblocks : padBlocks x 3072 ≠ [] := List.ne_nil_of_length_pos (padBlocks_length x 3072 ▸ padCount_pos _ _)
    exact endsInFinalCall_seqCallsFrom pb zeroCv hblocks (Nat.zero_add _)
  | succ n ih =>
    have hlen := par_length pb x level
    by_cases hone : (parCalls x level).length = 1
    · obtain ⟨c, hc⟩ := List.length_eq_one_iff.mp hone
      have hz : c.z = 1 := by rw [z_of_mem_parCalls (hc ▸ List.mem_singleton_self c), if_pos hone]
      have hroot : cvOfBits (par pb x level) = compressNode pb c := by
        rw [par_eq, hc, List.map_singleton, bitsOfCvs_singleton, cvOfBits_bitsOfCv]
      rw [topCallsFrom, topFrom, if_pos (by omega), if_pos (by omega), hc, hroot]
      exact endsInFinalCall_singleton pb hz
    · rw [topCallsFrom, topFrom, if_neg (by omega), if_neg (by omega)]
      exact .append (fun c hc => by rw [z_of_mem_parCalls hc, if_neg hone]) (ih _ _)

end Sys2Proof.Machine
end

section
/-! SUPPORT. What HASH leaves (43_tree_scheduler.md R208), one lemma per completion. -/

namespace Sys2Proof.Machine

section
variable {s : State}

theorem exec_hash_of_not_pbValid (h : s.status.pbValid = false) : exec .hash s = raiseError .notConfigured s := by
  show execHash s = _
  simp [execHash, h]

theorem exec_hash_of_too_long (hpb : s.status.pbValid = true) (hlen : Config.msgCapBytes < s.msgLen.toNat) :
    exec .hash s = raiseError .msgTooLong s := by
  show execHash s = _
  rw [execHash, if_pos hpb, if_pos hlen]

theorem exec_hash_of_undefined (hpb : s.status.pbValid = true) (hlen : s.msgLen.toNat ≤ Config.msgCapBytes)
    (hmsg : messageBytes s = none) : exec .hash s = undefinedInput s := by
  show execHash s = _
  rw [execHash, if_pos hpb, if_neg (Nat.not_lt.mpr hlen), hmsg]

/-- HASH on a defined message leaves TOP(M) and its digest (R208, 44_cv_accumulator.md R249). -/
theorem exec_hash_of_messageBytes {msg : List Byte} (hpb : s.status.pbValid = true)
    (hlen : s.msgLen.toNat ≤ Config.msgCapBytes) (hmsg : messageBytes s = some msg) :
    exec .hash s = .next { s with
      cvOut := top s.pb (bitsOfBytes msg)
      digest := digestWords (top s.pb (bitsOfBytes msg)) s.pb.d.toNat
      acc := (accRun s.pb msg).1
      win := undefinedWindow s.freeIndex
      freeIndex := s.freeIndex + 91
      status := { Success s.status with digestValid := true, cvValid := true, winValid := false } } := by
  show execHash s = _
  rw [execHash, if_pos hpb, if_neg (Nat.not_lt.mpr hlen), hmsg, ← accRun_snd]
  rfl

end

/-- Byte a of the DIGEST region is digest byte a, or 0 beyond the last one (R207, R208). -/
theorem extractLsb'_digestWords (cv : Cv) (d : Nat) {a : Nat} (ha : a < 64) :
    ((digestWords cv d)[a / 8]?.getD 0).extractLsb' (56 - 8 * (a % 8)) 8 = (digestBytes cv d).getD a 0 := by
  have hbyte := byteOfWord_wordAt (digestBytes cv d) (a / 8) (Nat.mod_lt a (by decide : 0 < 8))
  rw [Nat.div_add_mod] at hbyte
  rw [Vector.getElem?_eq_getElem (by omega), digestWords, tabulate_getElem]
  exact hbyte

end Sys2Proof.Machine
end

section
/-! PROOFS. The tree scheduler (43_tree_scheduler.md): HASH, its final call, and the empty message. -/

namespace Sys2Proof.Machine

/-- Settles O46: PB_VALID, MSG_LEN and the operand check decide between the four completions; the accumulator's root is
TOP(M). -/
theorem hashLeavesTheDigestOfTheMessage : Obligations.HashLeavesTheDigestOfTheMessage := by
  refine ⟨by decide, fun s => ⟨fun hpb => ?_, fun hpb hlen => ?_, fun hpb hlen ⟨a, ha, hundefined⟩ => ?_,
    fun msg hpb hlen hmsgLen hdefined => ?_⟩⟩
  · exact endsInError_of_eq_raiseError (exec_hash_of_not_pbValid hpb)
  · exact endsInError_of_eq_raiseError (exec_hash_of_too_long hpb hlen)
  · have hmsg : messageBytes s = none := Memory.readBytes_eq_none s.mem _ msgBase a ha hundefined
    exact recordsOnly_of_eq_undefinedInput (exec_hash_of_undefined hpb hlen hmsg)
  · have hmsg : messageBytes s = some msg := by
      rw [messageBytes, ← hmsgLen]
      exact Memory.readBytes_eq_some s.mem msg msgBase hdefined
    exact ⟨_, exec_hash_of_messageBytes hpb hlen hmsg, rfl, fun a ha => extractLsb'_digestWords _ _ ha, rfl⟩

/-- Settles O48, by induction over the levels of TOP. -/
theorem onlyTheLastCallIsFinal : Obligations.OnlyTheLastCallIsFinal :=
  fun pb x => endsInFinalCall_topCallsFrom pb pb.l.toNat 1 x

/-- With L >= 1 the empty message is one PAR node of zero data (R210). -/
theorem parCalls_nil : parCalls [] 1 = [⟨1, 0, 1, 4096, List.replicate 64 0⟩] :=
  (parCalls_levelBits [] levelStart_accStart).trans (by decide)

/-- With L = 0 the empty message is one SEQ node of zero data (R210). -/
theorem topCallsFrom_zero_nil (pb : ParamBlock) :
    topCallsFrom pb 0 1 [] = [⟨1, 0, 1, 3072, List.replicate 64 0⟩] := by
  have hblocks : padBlocks [] 3072 = [padBlock [] 3072 0] := rfl
  have hnode := seqNode_eq [] levelStart_accStart zeroCv (i := 0) (by decide)
  show seqCallsFrom pb 1 (padBlocks [] 3072).length (padBlocks [] 3072) 0 zeroCv = _
  rw [hblocks]
  exact congrArg (fun c => [c]) (hnode.symm.trans (by decide))

/-- Settles O52: the two modes' first level on the empty message; in Tree mode its one node ends the loop. -/
theorem emptyMessageMakesOneCall : Obligations.EmptyMessageMakesOneCall := by
  refine fun pb => ⟨fun hl => ?_, fun hl => ?_⟩
  · obtain ⟨n, hn⟩ := Nat.exists_eq_succ_of_ne_zero (Nat.ne_of_gt hl)
    have hlen : (par pb [] 1).length = 1024 := by rw [par_length, parCalls_nil, List.length_singleton]
    rw [topCalls, hn, topCallsFrom, if_pos hlen, parCalls_nil]
  · rw [topCalls, hl, topCallsFrom_zero_nil]

end Sys2Proof.Machine
end

section
/-! PROOFS. The chaining-value accumulator (44_cv_accumulator.md): its root is TOP(M). -/

namespace Sys2Proof.Machine

/-- Settles O45: the run starts at the first level, and from the start of any level on the accumulator follows the loop of
TOP (`accLevels_snd`, by induction over the levels left). -/
theorem accumulatorComputesTop : Obligations.AccumulatorComputesTop :=
  accRun_snd

end Sys2Proof.Machine
end

section
/-! SUPPORT. The reset table on the configuration (70_reset_and_hazards.md R300), and what NOP and SOFT_RESET leave
(45_control.md R260, R261). -/

namespace Sys2Proof.Machine

/-- After reset no word of N_BUF is defined (R300). -/
theorem resetBlock_nBuf_defined (s : State) (j : Nat) (h : j < 89) : ((resetBlock s).nBuf[j]).defined = false :=
  congrArg Elem.defined (Vector.getElem_replicate h)

/-- The reset table's configuration, from any state. -/
theorem configurationIsReset_resetBlock (s : State) : ConfigurationIsReset (resetBlock s) :=
  ⟨rfl, rfl, rfl, rfl, rfl, rfl, rfl, rfl, rfl, rfl, Memory.read_nil, rfl, resetBlock_nBuf_defined s⟩

/-- STATUS after a success completion on the reset STATUS: DONE = 1 and every other bit 0 (R261). -/
theorem success_reset_word : (Success Status.reset).word = 0x0000000000000002 := by decide

/-- NOP is the success completion alone (R260). -/
theorem exec_nop (s : State) : exec .nop s = .next { s with status := Success s.status } := rfl

/-- SOFT_RESET is the reset of the block, then the success completion on the reset STATUS (R261). -/
theorem exec_softReset (s : State) :
    exec .softReset s = .next { resetBlock s with status := Success Status.reset } := rfl

end Sys2Proof.Machine
end

section
/-! PROOFS. The control commands (45_control.md). -/

namespace Sys2Proof.Machine

/-- Settles O27: the next state is the reset block with the success completion on the reset STATUS; the configuration does
not include STATUS, so that of the reset block is the next state's. -/
theorem softResetRestoresTheResetTable : Obligations.SoftResetRestoresTheResetTable :=
  ⟨decode_encode .softReset rfl, fun s =>
    ⟨_, exec_softReset s, configurationIsReset_resetBlock s, ⟨rfl, rfl, rfl, rfl⟩, success_reset_word,
      resetBlock_fault s, resetBlock_host s⟩⟩

/-- Settles O28: the effect is the success completion, which on the reset STATUS leaves the word 2. -/
theorem nopOnlyCompletes : Obligations.NopOnlyCompletes := by
  refine ⟨decode_encode .nop rfl, exec_nop, fun t h => ?_⟩
  obtain rfl := Host.Outcome.next.inj ((exec_nop State.reset).symm.trans h)
  exact success_reset_word

end Sys2Proof.Machine
end

section
/-! SUPPORT. The decoder, from the word's side (30_encoding.md R92, R93, R98): the fields of a word that decodes, the words
that do not, and the OP behind a row. -/

namespace Sys2Proof.Machine

/-- A word that decodes has the fields of its command's word, and its COUNT fits the command (R91, R92). -/
theorem fields_of_decode {w : Word} {i : Instr} (h : decode w = .ok i) :
    opField w = i.op ∧ rsv1Field w = 0 ∧ countField w = BitVec.ofNat 16 i.count ∧ rsv2Field w = 0 ∧
      i.wellFormed = true := by
  have hcount : countField w = BitVec.ofNat 16 (countField w).toNat := by simp
  have hfits : countFits (countField w).toNat = true := by simpa [countFits] using (countField w).isLt
  rw [decode_eq] at h
  generalize illegalReason w = reason at h
  simp only [ite_eq_iff, Except.ok.injEq, reduceCtorEq, and_false, or_false] at h
  obtain ⟨⟨hrsv1, hrsv2⟩, ⟨hop, rfl⟩ | ⟨_, ⟨hop, rfl⟩ | ⟨_, hzero, h⟩⟩⟩ := h
  · exact ⟨hop, hrsv1, hcount, hrsv2, hfits⟩
  · exact ⟨hop, hrsv1, hcount, hrsv2, hfits⟩
  · rcases h with ⟨hop, rfl⟩ | ⟨_, ⟨hop, rfl⟩ | ⟨_, ⟨hop, rfl⟩ | ⟨_, ⟨hop, rfl⟩ | ⟨_, ⟨hop, rfl⟩ | ⟨_, ⟨hop, rfl⟩ |
      ⟨_, ⟨hop, rfl⟩ | ⟨_, hop, rfl⟩⟩⟩⟩⟩⟩⟩ <;>
      exact ⟨hop, hrsv1, hzero, hrsv2, rfl⟩

/-- The words of R98: OP unassigned, a reserved field nonzero, or a COUNT on an OP that takes none. -/
def IllegalCommandWord (w : Word) : Prop :=
  0x0A ≤ (opField w).toNat ∨ rsv1Field w ≠ 0 ∨ rsv2Field w ≠ 0 ∨
    (countField w ≠ 0 ∧ opField w ≠ 0x07 ∧ opField w ≠ 0x08)

/-- No command's word is illegal. -/
theorem not_illegalCommandWord_of_decode {w : Word} {i : Instr} (h : decode w = .ok i) : ¬IllegalCommandWord w := by
  obtain ⟨hop, hrsv1, hcount, hrsv2, _⟩ := fields_of_decode h
  simp only [IllegalCommandWord, hop, hrsv1, hcount, hrsv2]
  cases i <;> simp [Instr.op, Instr.count]

/-- The assigned OPs (R92). -/
theorem opField_cases {w : Word} (h : (opField w).toNat < 0x0A) :
    opField w = 0 ∨ opField w = 1 ∨ opField w = 2 ∨ opField w = 3 ∨ opField w = 4 ∨ opField w = 5 ∨ opField w = 6 ∨
      opField w = 7 ∨ opField w = 8 ∨ opField w = 9 := by
  generalize opField w = op at *
  have hop : op = BitVec.ofNat 8 op.toNat := by simp
  generalize op.toNat = n at *
  subst hop
  interval_cases n <;> decide

/-- A word that is not illegal has a command. -/
theorem exists_decode_of_not_illegalCommandWord {w : Word} (h : ¬IllegalCommandWord w) : ∃ i, decode w = .ok i := by
  simp only [IllegalCommandWord, not_or, not_and, not_not, Nat.not_le, ne_eq] at h
  obtain ⟨hop, hrsv1, hrsv2, hcount⟩ := h
  rw [decode_eq, if_pos ⟨hrsv1, hrsv2⟩]
  by_cases hzero : countField w = 0
  · rcases opField_cases hop with h | h | h | h | h | h | h | h | h | h <;> rw [h, hzero] <;> exact ⟨_, rfl⟩
  · by_cases hstep : opField w = 7
    · exact ⟨_, if_pos hstep⟩
    · rw [if_neg hstep, hcount hzero hstep]
      exact ⟨_, rfl⟩

/-- The refused words are exactly those of R98. -/
theorem decode_error_iff (w : Word) : (∃ e, decode w = .error e) ↔ IllegalCommandWord w := by
  constructor
  · rintro ⟨e, he⟩
    by_contra hlegal
    obtain ⟨i, hi⟩ := exists_decode_of_not_illegalCommandWord hlegal
    simp [he] at hi
  · intro hillegal
    cases hdecode : decode w with
    | error e => exact ⟨e, rfl⟩
    | ok i => exact absurd hillegal (not_illegalCommandWord_of_decode hdecode)

/-- Every row fixes all of OP, and its pattern has nothing above OP (R92). -/
theorem cmdTable_mask_op : ∀ r ∈ cmdTable, r.mask &&& 0xFF = 0xFF ∧ r.pattern &&& 0xFF = r.pattern := by
  decide

/-- A row selects only words whose OP is its pattern (R92). -/
theorem pattern_of_selects {r : CmdRow} (hr : r ∈ cmdTable) {w : Word} (h : r.selects w = true) :
    r.pattern = w &&& 0xFF := by
  obtain ⟨hmask, hpattern⟩ := cmdTable_mask_op r hr
  have hselects : w &&& r.mask = r.pattern := eq_of_beq h
  rw [← hpattern, ← hselects, BitVec.and_assoc, hmask]

/-- No two rows share a pattern (R92). -/
theorem cmdTable_patterns_nodup : (cmdTable.map CmdRow.pattern).Nodup := by
  decide

end Sys2Proof.Machine
end

section
/-! PROOFS. The encoding of commands (30_encoding.md section 1 and R98). -/

namespace Sys2Proof.Machine

/-- Settles O2: `decode_encode`, which reads the command off the four fields of its word. -/
theorem decodeOfEncodeIsTheCommand : Obligations.DecodeOfEncodeIsTheCommand :=
  decode_encode

/-- Settles O3: a word that decodes has the four fields of its command's word, and a word is its four fields. -/
theorem encodeOfDecodeIsTheWord : Obligations.EncodeOfDecodeIsTheWord := by
  intro w i h
  obtain ⟨hop, hrsv1, hcount, hrsv2, hwf⟩ := fields_of_decode h
  obtain ⟨hop', hrsv1', hcount', hrsv2'⟩ := encode_fields i
  exact ⟨hwf, word_ext _ w (hop'.trans hop.symm) (hrsv1'.trans hrsv1.symm) (hcount'.trans hcount.symm)
    (hrsv2'.trans hrsv2.symm)⟩

/-- Settles O4: the three cases of R98 are `IllegalCommandWord`. -/
theorem decodeRefusesExactlyTheIllegalWords : Obligations.DecodeRefusesExactlyTheIllegalWords :=
  decode_error_iff

/-- Settles O5: the rows that select a word all have its OP as their pattern, and the patterns are distinct. -/
theorem atMostOneRowSelectsAWord : Obligations.AtMostOneRowSelectsAWord := by
  intro w
  have hsame : ∀ p ∈ (cmdTable.filter fun r => r.selects w).map CmdRow.pattern, p = w &&& 0xFF := by
    intro p hp
    obtain ⟨r, hr, rfl⟩ := List.mem_map.mp hp
    obtain ⟨hmem, hselects⟩ := List.mem_filter.mp hr
    exact pattern_of_selects hmem hselects
  have hnodup : ((cmdTable.filter fun r => r.selects w).map CmdRow.pattern).Nodup :=
    cmdTable_patterns_nodup.sublist (List.filter_sublist.map _)
  rw [List.eq_replicate_of_mem hsame, List.nodup_replicate, List.length_map] at hnodup
  exact hnodup

/-- Settles O1: fourteen words, each evaluated. -/
theorem decodesTheSpecsCommandWords : Obligations.DecodesTheSpecsCommandWords :=
  ⟨by decide, by decide, by decide, by decide, by decide, by decide, by decide, by decide, by decide, by decide, by decide,
    by decide, by decide, by decide⟩

end Sys2Proof.Machine
end

section
/-! SUPPORT. The step on the core's turn (20_memory.md R74, 30_encoding.md R93): whose turn it is, and what the turn does. -/

namespace Sys2Proof.Machine

/-- With BUSY = 1 and FAULT empty the core takes its turn, given by the schedule or left over when it is empty (R74). -/
theorem nextTurn_eq_core {s : State} {rest : List HostMove} (hbusy : s.status.busy = true) (hfault : s.fault = [])
    (hmoves : s.host.moves = .coreTurn :: rest ∨ (s.host.moves = [] ∧ rest = [])) :
    nextTurn s = .core (s.withMoves rest) := by
  have henabled : coreEnabled (s.withMoves rest) = true := (coreEnabled_iff _).mpr ⟨hbusy, hfault⟩
  have hfree : s.faultFree = true := by rw [State.faultFree, hfault, List.isEmpty_nil]
  rcases hmoves with hmoves | ⟨hmoves, rfl⟩
  · simp [nextTurn, hmoves, makeMove, henabled]
  · have hsame : s.withMoves [] = s := hmoves ▸ State.withMoves_self s
    simp [nextTurn, hmoves, restTurn, hfree, hbusy, hsame]

theorem step_of_decode_ok {s u : State} {i : Instr} (hturn : nextTurn s = .core u)
    (hdecode : decode u.pending.value = .ok i) : step s = exec i u := by
  simp [step, hturn, fetch, hdecode, Except.toOption]

theorem step_of_decode_error {s u : State} {e : IllegalWord} (hturn : nextTurn s = .core u)
    (hdecode : decode u.pending.value = .error e) : step s = raiseError .illegalCmd u := by
  simp [step, hturn, fetch, hdecode, Except.toOption, illegalCommand]

theorem step_of_over {s : State} {o : Host.Outcome State Fault Refusal} (hturn : nextTurn s = .over o) : step s = o := by
  simp [step, hturn]

/-- The next move of the schedule is made on the state without it. -/
theorem nextTurn_cons {s : State} {m : HostMove} {rest : List HostMove} (h : s.host.moves = m :: rest) :
    nextTurn s = makeMove (s.withMoves rest) m := by
  rw [nextTurn, h]

/-- The moves left once the core has had the turn `CoreRuns` speaks of. -/
theorem moves_of_coreRuns {s : State} {i : Instr} (h : CoreRuns s i) :
    s.host.moves = .coreTurn :: s.host.moves.tail ∨ (s.host.moves = [] ∧ s.host.moves.tail = []) := by
  obtain ⟨_, _, hmoves, _⟩ := h
  cases hcases : s.host.moves with
  | nil => exact .inr ⟨rfl, rfl⟩
  | cons m rest =>
    rw [hcases] at hmoves
    simp only [List.cons_ne_nil, List.head?_cons, Option.some.injEq, false_or] at hmoves
    exact .inl (by rw [hmoves, List.tail_cons])

/-- When the core runs `i`, the step is its execution on the state without the turn. -/
theorem step_of_coreRuns {s : State} {i : Instr} (h : CoreRuns s i) :
    step s = exec i (s.withMoves s.host.moves.tail) := by
  have hmoves := moves_of_coreRuns h
  obtain ⟨hbusy, hfault, _, hdecode⟩ := h
  exact step_of_decode_ok (nextTurn_eq_core hbusy hfault hmoves) hdecode

end Sys2Proof.Machine
end

section
/-! PROOFS. The core's turn and the moves of the schedule (20_memory.md R72, R74, 70_reset_and_hazards.md R300). -/

namespace Sys2Proof.Machine

/-- Settles O6: the turn is the core's, and PENDING decodes. -/
theorem stepExecutesTheDecodedCommand : Obligations.StepExecutesTheDecodedCommand := by
  refine fun s i hbusy hfault hdecode => ⟨fun hmoves => ?_, fun rest hmoves => ?_⟩
  · have hturn : nextTurn s = .core s := by
      have hcore := nextTurn_eq_core hbusy hfault (.inr ⟨hmoves, rfl⟩)
      rwa [← hmoves, State.withMoves_self] at hcore
    exact step_of_decode_ok hturn hdecode
  · exact step_of_decode_ok (nextTurn_eq_core hbusy hfault (.inl hmoves)) hdecode

/-- Settles O7: the turn is the core's, and PENDING is one of the words that do not decode. -/
theorem stepOfAnIllegalWordRaisesIllegalCmd : Obligations.StepOfAnIllegalWordRaisesIllegalCmd := by
  intro s hbusy hfault hillegal
  obtain ⟨e, hdecode⟩ := (decode_error_iff s.pending.value).mpr hillegal
  refine ⟨fun hmoves => ?_, fun rest hmoves => ?_⟩
  · have hturn := nextTurn_eq_core hbusy hfault (.inr ⟨hmoves, rfl⟩)
    rw [← hmoves, State.withMoves_self] at hturn
    exact endsInError_of_eq_raiseError (step_of_decode_error hturn hdecode)
  · have hturn := nextTurn_eq_core hbusy hfault (.inl hmoves)
    exact endsInError_of_eq_raiseError (step_of_decode_error hturn hdecode)

/-- Settles O8: the core is not enabled, so its turn is over at once. -/
theorem coreHasNoStepWhenIdleOrFaulted : Obligations.CoreHasNoStepWhenIdleOrFaulted := by
  intro s rest hmoves hstopped
  have hdisabled : ¬coreEnabled (s.withMoves rest) = true := by
    rw [coreEnabled_iff]
    rintro ⟨hbusy, hfault⟩
    rcases hstopped with hidle | hfaulted
    · exact Bool.false_ne_true (hidle.symm.trans hbusy)
    · exact hfaulted hfault
  have hturn : nextTurn s = .over (.next (s.withMoves rest)) := (nextTurn_cons hmoves).trans (if_neg hdisabled)
  exact step_of_over hturn

/-- Settles O11: a host access at the head of the schedule is the whole turn. -/
theorem stepMakesTheHostsNextAccess : Obligations.StepMakesTheHostsNextAccess :=
  fun _ _ _ _ _ => ⟨fun hmoves => step_of_over (nextTurn_cons hmoves), fun hmoves => step_of_over (nextTurn_cons hmoves)⟩

/-- STATUS after reset is the word 0 (R300). -/
theorem reset_status_word : Status.reset.word = 0 := by decide

/-- Settles O26: with BUSY = 0 the reset event is the whole turn, and leaves the reset block. -/
theorem resetEventRestoresTheResetTable : Obligations.ResetEventRestoresTheResetTable := by
  intro s rest hmoves hidle
  have hnotBusy : ¬(s.withMoves rest).status.busy = true := hidle.symm ▸ Bool.false_ne_true
  have hturn : nextTurn s = .over (.next (resetBlock (s.withMoves rest))) :=
    (nextTurn_cons hmoves).trans (if_neg hnotBusy)
  exact ⟨_, step_of_over hturn, configurationIsReset_resetBlock _, ⟨rfl, rfl, rfl, rfl⟩, reset_status_word, rfl⟩

/-- Settles O25: the initial state is its own reset block. -/
theorem initialStateIsTheResetTable : Obligations.InitialStateIsTheResetTable :=
  ⟨configurationIsReset_resetBlock State.reset, ⟨rfl, rfl, rfl, rfl⟩, reset_status_word, rfl⟩

end Sys2Proof.Machine
end

section
/-! SUPPORT. What a command can leave (20_memory.md R74, R77): an error code, F_UNDEFINED_INPUT, or its own writes with the
success STATUS. -/

namespace Sys2Proof.Machine

/-- `t` is what the command leaves when it succeeds on `s`: the checks it passed, its own writes, and the success
STATUS. -/
def Succeeds (s t : State) : Instr → Prop
  | .nop => t = { s with status := Success s.status }
  | .softReset => t = { resetBlock s with status := Success Status.reset }
  | .configure => configError s = none ∧ ∃ key, t = { s with
      pb := { d := s.cfgD, keylen := s.cfgKeylen, l := s.cfgL, r := roundsInForce s, k := keyWords key }
      status := { Success s.status with pbValid := true } }
  | .encodeNode => t = { s with nBuf := headerInNBuf s, status := Success s.status }
  | .compress => s.status.pbValid = true ∧ ∃ n, nBufWords s = some n ∧ t = { s with
      win := runSteps (16 * s.pb.r.toNat) (loadWindow n)
      cvOut := lastWords (runSteps (16 * s.pb.r.toNat) (loadWindow n)).w
      status := { Success s.status with winValid := true, cvValid := true } }
  | .hash => s.status.pbValid = true ∧ s.msgLen.toNat ≤ Config.msgCapBytes ∧ ∃ msg, messageBytes s = some msg ∧
      t = { s with
        digest := digestWords (accRun s.pb msg).2 s.pb.d.toNat
        cvOut := (accRun s.pb msg).2
        acc := (accRun s.pb msg).1
        win := undefinedWindow s.freeIndex
        freeIndex := s.freeIndex + 91
        status := { Success s.status with digestValid := true, cvValid := true, winValid := false } }
  | .loadN => ∃ n, nBufWords s = some n ∧
      t = { s with win := loadWindow n, status := { Success s.status with winValid := true } }
  | .step n => s.status.winValid = true ∧ t = { s with win := runSteps n s.win, status := Success s.status }
  | .round n => s.status.winValid = true ∧ t = { s with win := runSteps (16 * n) s.win, status := Success s.status }
  | .readCv => s.status.winValid = true ∧
      t = { s with cvOut := lastWords s.win.w, status := { Success s.status with cvValid := true } }

/-- A command that does not succeed ends in an error code or in F_UNDEFINED_INPUT. -/
theorem exec_cases_succeeds (i : Instr) (s : State) :
    (∃ code, code ≠ .noError ∧ code ≠ .treeHeight ∧ exec i s = raiseError code s) ∨
    exec i s = undefinedInput s ∨ ∃ t, exec i s = .next t ∧ Succeeds s t i := by
  cases i with
  | nop => exact .inr (.inr ⟨_, rfl, rfl⟩)
  | softReset => exact .inr (.inr ⟨_, rfl, rfl⟩)
  | configure =>
    rcases execConfigure_cases s with ⟨code, hc, h⟩ | ⟨_, _, h⟩ | ⟨key, hc, _, h⟩
    · refine .inl ⟨code, ?_, ?_, h⟩ <;> rcases configError_codes s code hc with rfl | rfl | rfl | rfl <;> decide
    · exact .inr (.inl h)
    · exact .inr (.inr ⟨_, h, hc, key, rfl⟩)
  | encodeNode =>
    rcases execEncodeNode_cases s with ⟨_, h⟩ | ⟨_, _, h⟩ | ⟨_, _, h⟩
    · exact .inl ⟨_, by decide, by decide, h⟩
    · exact .inl ⟨_, by decide, by decide, h⟩
    · exact .inr (.inr ⟨_, h, rfl⟩)
  | compress =>
    rcases execCompress_cases s with ⟨_, h⟩ | ⟨_, _, h⟩ | ⟨n, hpb, hn, h⟩
    · exact .inl ⟨_, by decide, by decide, h⟩
    · exact .inr (.inl h)
    · exact .inr (.inr ⟨_, h, hpb, n, hn, rfl⟩)
  | hash =>
    rcases execHash_cases s with ⟨_, h⟩ | ⟨_, _, h⟩ | ⟨_, _, _, h⟩ | ⟨msg, hpb, hlen, hmsg, h⟩
    · exact .inl ⟨_, by decide, by decide, h⟩
    · exact .inl ⟨_, by decide, by decide, h⟩
    · exact .inr (.inl h)
    · exact .inr (.inr ⟨_, h, hpb, hlen, msg, hmsg, rfl⟩)
  | loadN =>
    rcases execLoadN_cases s with ⟨_, h⟩ | ⟨n, hn, h⟩
    · exact .inr (.inl h)
    · exact .inr (.inr ⟨_, h, n, hn, rfl⟩)
  | step n =>
    rcases stepWindow_cases n s with ⟨_, h⟩ | ⟨hwin, h⟩
    · exact .inl ⟨_, by decide, by decide, h⟩
    · exact .inr (.inr ⟨_, h, hwin, rfl⟩)
  | round n =>
    rcases stepWindow_cases (16 * n) s with ⟨_, h⟩ | ⟨hwin, h⟩
    · exact .inl ⟨_, by decide, by decide, h⟩
    · exact .inr (.inr ⟨_, h, hwin, rfl⟩)
  | readCv =>
    rcases execReadCv_cases s with ⟨_, h⟩ | ⟨hwin, h⟩
    · exact .inl ⟨_, by decide, by decide, h⟩
    · exact .inr (.inr ⟨_, h, hwin, rfl⟩)

/-- The three completions, of the next state. -/
theorem exec_next_cases {i : Instr} {s t : State} (h : exec i s = .next t) :
    (∃ code, code ≠ .noError ∧ code ≠ .treeHeight ∧ EndsInError s t code) ∨
    t = recordFault .undefinedInput s ∨ Succeeds s t i := by
  rcases exec_cases_succeeds i s with ⟨code, hcode, hheight, he⟩ | he | ⟨u, he, hu⟩ <;>
    obtain rfl := Host.Outcome.next.inj (he.symm.trans h)
  · exact .inl ⟨code, hcode, hheight, rfl⟩
  · exact .inr (.inl rfl)
  · exact .inr (.inr hu)

end Sys2Proof.Machine
end

section
/-! PROOFS. The completions of a command and what each leaves unchanged (20_memory.md R74, R77). -/

namespace Sys2Proof.Machine

/-- Settles O9: one completion for each of the three ways a meaning can end. -/
theorem everyCommandEndsInOneOfThreeCompletions : Obligations.EveryCommandEndsInOneOfThreeCompletions := by
  intro i s
  rcases exec_cases i s with ⟨code, hcode, _, h⟩ | h | ⟨u, h, hfault, _⟩
  · exact ⟨_, h, .inr (.inl ⟨code, hcode, rfl⟩)⟩
  · obtain ⟨t, ht, hrecords⟩ := recordsOnly_of_eq_undefinedInput h
    exact ⟨t, ht, .inr (.inr hrecords)⟩
  · exact ⟨_, h, .inl ⟨rfl, rfl, rfl, rfl, hfault⟩⟩

/-- Settles O10: an error changes STATUS alone and F_UNDEFINED_INPUT changes FAULT alone; of a success `Succeeds` lists the
writes, command by command. -/
theorem commandsLeaveOtherStateUnchanged : Obligations.CommandsLeaveOtherStateUnchanged := by
  intro i s t hsoftReset h
  rcases exec_next_cases h with ⟨code, _, _, rfl⟩ | rfl | hs
  · simp
  · rw [recordFault_eq]
    simp
  · cases i with
    | softReset => exact absurd rfl hsoftReset
    | nop => obtain rfl := hs; simp [Success]
    | encodeNode =>
      obtain rfl := hs
      simpa [Success] using fun j h hdata => headerInNBuf_getElem_data s h hdata
    | configure | loadN => obtain ⟨_, _, rfl⟩ := hs; simp [Success]
    | step | round | readCv => obtain ⟨_, rfl⟩ := hs; simp [Success]
    | compress => obtain ⟨_, _, _, rfl⟩ := hs; simp [Success]
    | hash => obtain ⟨_, _, _, _, rfl⟩ := hs; simp [Success]

end Sys2Proof.Machine
end

section
/-! SUPPORT. What one step can do to the block, in five kinds (20_memory.md R72 to R77). -/

namespace Sys2Proof.Machine

/-- The kinds of step, as the invariants need them. -/
inductive StepEffect (s t : State) : Prop
  /-- Nothing changes but FAULT, which stays a set, and the host agent. -/
  | quiet (hsame : SameApartFromFault s t) (hfault : s.fault.Nodup → t.fault.Nodup)
  /-- The host stores a word. -/
  | write (rest : List HostMove) (off : Nat) (v : Word) (e : Element) (hidle : s.status.busy = false)
      (helement : elementAt off = some e) (heq : t = writeElement v (s.withMoves rest) e)
  /-- The reset event. -/
  | reset (rest : List HostMove) (heq : t = resetBlock (s.withMoves rest))
  /-- A command ends in an error code, or the word in PENDING is illegal. -/
  | error (rest : List HostMove) (code : ErrCode) (hcode : code ≠ .noError) (hheight : code ≠ .treeHeight)
      (hend : EndsInError (s.withMoves rest) t code)
  /-- A command succeeds. -/
  | success (rest : List HostMove) (i : Instr) (hruns : CoreRuns s i) (hend : Succeeds (s.withMoves rest) t i)

/-- Recording model faults is quiet. -/
theorem sameApartFromFault_recordFaults (fs : List ModelFault) (s : State) : SameApartFromFault s (recordFaults fs s) := by
  rw [SameApartFromFault, recordFaults_eq]

theorem sameApartFromFault_recordFault (f : ModelFault) (s : State) : SameApartFromFault s (recordFault f s) := by
  rw [SameApartFromFault, recordFault_eq]

theorem stepEffect_hostWrite (s : State) (rest : List HostMove) (off width : Nat) (v : Word) :
    StepEffect s (hostWrite off width v (s.withMoves rest)) := by
  rcases hostWrite_cases off width v (s.withMoves rest) with ⟨hnone, e, he, h⟩ | ⟨_, h⟩ <;> rw [h]
  · have hno : ∀ f, f ∉ writeFaults off width (s.withMoves rest) := List.eq_nil_iff_forall_not_mem.mp hnone
    have hidle := hno .busyAccess
    simp only [mem_writeFaults, State.withMoves_status] at hidle
    exact .write rest off v e (by simpa using hidle) he rfl
  · exact .quiet (sameApartFromFault_recordFaults _ (s.withMoves rest)) (nodup_recordFaults _ (s.withMoves rest))

theorem stepEffect_hostRead (s : State) (rest : List HostMove) (off width : Nat) :
    StepEffect s (hostRead off width (s.withMoves rest)) := by
  rcases hostRead_cases off width (s.withMoves rest) with ⟨_, h⟩ | ⟨_, h⟩ <;> rw [h]
  · exact .quiet rfl id
  · refine .quiet ?_ (nodup_recordFaults _ (s.withMoves rest))
    rw [recordFaults_eq]
    rfl

theorem stepEffect_requireHost (s : State) (rest : List HostMove) (c : Bool) :
    StepEffect s (requireHost c (s.withMoves rest)) := by
  cases c <;> exact .quiet rfl id

theorem stepEffect_waitTurn (s : State) (rest : List HostMove) : StepEffect s (waitTurn (s.withMoves rest)) := by
  unfold waitTurn
  split <;> exact .quiet rfl id

theorem stepEffect_exec {s t : State} {rest : List HostMove} {i : Instr} (hruns : CoreRuns s i)
    (h : exec i (s.withMoves rest) = .next t) : StepEffect s t := by
  rcases exec_next_cases h with ⟨code, hcode, hheight, hend⟩ | rfl | hend
  · exact .error rest code hcode hheight hend
  · exact .quiet (sameApartFromFault_recordFault _ (s.withMoves rest)) (nodup_recordFault _ (s.withMoves rest))
  · exact .success rest i hruns hend

/-- Every step is of one of the five kinds. -/
theorem stepEffect {s t : State} (h : step s = .next t) : StepEffect s t := by
  rcases step_next_cases s t h with ⟨off, width, v, rest, _, rfl⟩ | ⟨off, width, rest, _, rfl⟩ | ⟨rest, _, rfl⟩ |
    ⟨rest, _, rfl⟩ | ⟨code, rest, _, rfl⟩ | ⟨rest, _, _, rfl⟩ | ⟨rest, _, _, rfl⟩ | ⟨_, _, _, rfl⟩ |
    ⟨rest, hmoves, hbusy, hfault, hcore⟩
  · exact stepEffect_hostWrite s rest off width v
  · exact stepEffect_hostRead s rest off width
  · exact stepEffect_waitTurn s rest
  · exact stepEffect_requireHost s rest _
  · exact stepEffect_requireHost s rest _
  · exact .reset rest rfl
  · exact .quiet rfl id
  · exact .quiet rfl id
  · rcases hcore with ⟨i, hdecode, hexec⟩ | ⟨_, _, herror⟩
    · have hturn : s.host.moves = [] ∨ s.host.moves.head? = some .coreTurn := by
        rcases hmoves with hmoves | ⟨hmoves, _⟩ <;> simp [hmoves]
      exact stepEffect_exec ⟨hbusy, hfault, hturn, hdecode⟩ hexec.symm
    · exact .error rest .illegalCmd (by decide) (by decide) (Host.Outcome.next.inj herror)

/-- Storing a word changes its own register, or KEY, MSG and N_BUF, or for CMD PENDING and STATUS (20_memory.md R65, R66,
R73). -/
theorem writeElement_eq (v : Word) (s : State) (e : Element) : writeElement v s e =
    { s with
      cfgD := if e = .cfgD then v else s.cfgD
      cfgKeylen := if e = .cfgKeylen then v else s.cfgKeylen
      cfgL := if e = .cfgL then v else s.cfgL
      cfgR := if e = .cfgR then v else s.cfgR
      rOverride := if e = .cfgFlags then v.getLsbD 0 else s.rOverride
      msgLen := if e = .msgLen then v else s.msgLen
      encLevel := if e = .encLevel then v else s.encLevel
      encIndex := if e = .encIndex then v else s.encIndex
      encZ := if e = .encZ then v else s.encZ
      encP := if e = .encP then v else s.encP
      mem := (writeElement v s e).mem
      nBuf := (writeElement v s e).nBuf
      pending := if e = .cmd then ⟨v, true⟩ else s.pending
      status := if e = .cmd then Status.issued s.status else s.status } := by
  cases e <;> rfl

@[simp] theorem writeElement_status (v : Word) (s : State) (e : Element) :
    (writeElement v s e).status = if e = .cmd then Status.issued s.status else s.status := by
  rw [writeElement_eq]

@[simp] theorem writeElement_win (v : Word) (s : State) (e : Element) : (writeElement v s e).win = s.win := by
  rw [writeElement_eq]

@[simp] theorem writeElement_acc (v : Word) (s : State) (e : Element) : (writeElement v s e).acc = s.acc := by
  rw [writeElement_eq]

end Sys2Proof.Machine
end

section
/-! SUPPORT. The control invariant over the kinds of step (10_state.md R29 to R31, R40, 60_exceptions.md R271 to R276). -/

namespace Sys2Proof.Machine

/-- A legal parameter block (42_parameter_encoder.md R170, 10_state.md R31). -/
def ParamBlock.InRange (pb : ParamBlock) : Prop :=
  1 ≤ pb.d.toNat ∧ pb.d.toNat ≤ 512 ∧ pb.keylen.toNat ≤ 64 ∧ pb.l.toNat ≤ 64 ∧ pb.r.toNat ≤ 255

/-- The control invariant does not read the host agent, and of FAULT only that it is a set. -/
theorem ControlInv.of_sameApartFromFault {s t : State} (h : ControlInv s) (hsame : SameApartFromFault s t)
    (hfault : t.fault.Nodup) : ControlInv t := by
  rw [hsame]
  exact { h with faultIsASet := hfault }

/-- A state after a completion is legal when its error code is, and its parameter block and FAULT are. -/
theorem ControlInv.of_completed {t : State} (hbusy : t.status.busy = false) (hdone : t.status.done = true)
    (herr : t.status.err = true ↔ t.status.errcode ≠ .noError) (hheight : t.status.errcode ≠ .treeHeight)
    (hpb : t.status.pbValid = true → t.pb.InRange) (hfault : t.fault.Nodup) : ControlInv t where
  busyClearsDoneAndErr h := absurd (hbusy.symm.trans h) Bool.false_ne_true
  errMeansDone _ := hdone
  errcodeNamesTheError := herr
  noTreeHeight := hheight
  busyMeansPending h := absurd (hbusy.symm.trans h) Bool.false_ne_true
  pbInRange := hpb
  faultIsASet := hfault

/-- An error completion with a code that commands raise is legal (60_exceptions.md R273, R288). -/
theorem ControlInv.of_endsInError {s t : State} {code : ErrCode} (h : ControlInv s) (hcode : code ≠ .noError)
    (hheight : code ≠ .treeHeight) (hend : EndsInError s t code) : ControlInv t := by
  subst hend
  exact .of_completed rfl rfl ⟨fun _ => hcode, fun _ => rfl⟩ hheight h.pbInRange h.faultIsASet

/-- The rounds in force fit PB_R (42_parameter_encoder.md R172). -/
theorem roundsInForce_le {s : State} (h : configError s = none) : (roundsInForce s).toNat ≤ 255 := by
  obtain ⟨_, hd, _, _, hr⟩ := (configError_eq_none_iff s).mp h
  have hdefault := defaultRounds_le hd s.cfgKeylen.toNat
  rw [toNat_roundsInForce hd]
  split
  · exact hr ‹_›
  · omega

/-- A command that succeeds leaves the success STATUS and FAULT as it was; a valid parameter block after it is the one
before it, or the one CONFIGURE has checked. -/
theorem completion_of_succeeds {s t : State} {i : Instr} (h : Succeeds s t i) :
    (t.status.busy = false ∧ t.status.done = true ∧ t.status.err = false ∧ t.status.errcode = .noError ∧
      t.fault = s.fault) ∧
    (t.status.pbValid = true → (s.status.pbValid = true ∧ t.pb = s.pb) ∨ t.pb.InRange) := by
  cases i with
  | configure =>
    obtain ⟨hchecks, key, rfl⟩ := h
    obtain ⟨hd, hd', hkeylen, hl, _⟩ := (configError_eq_none_iff s).mp hchecks
    exact ⟨⟨rfl, rfl, rfl, rfl, rfl⟩, fun _ => .inr ⟨hd, hd', hkeylen, hl, roundsInForce_le hchecks⟩⟩
  | softReset =>
    obtain rfl := h
    exact ⟨⟨rfl, rfl, rfl, rfl, rfl⟩, fun hpb => absurd hpb Bool.false_ne_true⟩
  | nop | encodeNode => obtain rfl := h; exact ⟨⟨rfl, rfl, rfl, rfl, rfl⟩, fun hpb => .inl ⟨hpb, rfl⟩⟩
  | loadN => obtain ⟨_, _, rfl⟩ := h; exact ⟨⟨rfl, rfl, rfl, rfl, rfl⟩, fun hpb => .inl ⟨hpb, rfl⟩⟩
  | step | round | readCv => obtain ⟨_, rfl⟩ := h; exact ⟨⟨rfl, rfl, rfl, rfl, rfl⟩, fun hpb => .inl ⟨hpb, rfl⟩⟩
  | compress => obtain ⟨_, _, _, rfl⟩ := h; exact ⟨⟨rfl, rfl, rfl, rfl, rfl⟩, fun hpb => .inl ⟨hpb, rfl⟩⟩
  | hash => obtain ⟨_, _, _, _, rfl⟩ := h; exact ⟨⟨rfl, rfl, rfl, rfl, rfl⟩, fun hpb => .inl ⟨hpb, rfl⟩⟩

/-- A success keeps the control invariant. -/
theorem ControlInv.of_succeeds {s t : State} {i : Instr} (h : ControlInv s) (hend : Succeeds s t i) : ControlInv t := by
  obtain ⟨⟨hbusy, hdone, herr, herrcode, hfault⟩, hpb⟩ := completion_of_succeeds hend
  refine .of_completed hbusy hdone (by simp [herr, herrcode]) (by simp [herrcode]) (fun hvalid => ?_)
    (hfault ▸ h.faultIsASet)
  rcases hpb hvalid with ⟨hbefore, hsame⟩ | hrange
  · exact hsame ▸ h.pbInRange hbefore
  · exact hrange

/-- Reset leaves a legal control state (70_reset_and_hazards.md R300). -/
theorem controlInv_resetBlock {s : State} (hfault : s.fault.Nodup) : ControlInv (resetBlock s) where
  busyClearsDoneAndErr _ := ⟨rfl, rfl⟩
  errMeansDone h := absurd h Bool.false_ne_true
  errcodeNamesTheError := ⟨fun h => absurd h Bool.false_ne_true, fun h => absurd rfl h⟩
  noTreeHeight := (by decide : Status.reset.errcode ≠ .treeHeight)
  busyMeansPending h := absurd h Bool.false_ne_true
  pbInRange h := absurd h Bool.false_ne_true
  faultIsASet := hfault

/-- Storing a word keeps the control invariant: a CMD write sets PENDING with BUSY and clears DONE and ERR (20_memory.md
R73), and no other word is one it reads. -/
theorem ControlInv.writeElement {s : State} (h : ControlInv s) (v : Word) (e : Element) :
    ControlInv (writeElement v s e) := by
  by_cases hcmd : e = .cmd
  · subst hcmd
    exact {
      busyClearsDoneAndErr := fun _ => ⟨rfl, rfl⟩
      errMeansDone := fun herr => absurd herr Bool.false_ne_true
      errcodeNamesTheError := ⟨fun herr => absurd herr Bool.false_ne_true, fun herr => absurd rfl herr⟩
      noTreeHeight := ErrCode.noConfusion
      busyMeansPending := fun _ => rfl
      pbInRange := h.pbInRange
      faultIsASet := h.faultIsASet }
  · rw [writeElement_eq, if_neg hcmd, if_neg hcmd]
    exact { h with }

end Sys2Proof.Machine
end

section
/-! SUPPORT. The words of the register map that are stored in the byte memory or in N_BUF: where they stand (30_encoding.md
R94), and what storing one does to the memory (20_memory.md R66, R67). -/

namespace Sys2Proof.Machine

/-- The offsets of the words of KEY, N_BUF and MSG, with the word's number in its array (R94). -/
def Element.StandsAt (off : Nat) : Element → Prop
  | .key t => 0x100 ≤ off ∧ off < 0x140 ∧ t = off / 8 - 0x100 / 8
  | .nBuf t => 0x200 ≤ off ∧ off < 0x4C8 ∧ t = off / 8 - 0x200 / 8
  | .msg t => 0x10000 ≤ off ∧ off < 0x10000 + Config.msgCapBytes ∧ t = off / 8 - 0x10000 / 8
  | _ => True

/-- No scalar register is a word of an array. -/
theorem standsAt_of_scalarElements {k : Nat} {e : Element} (hk : k < 18) (h : scalarElements[k]? = some e) (off : Nat) :
    e.StandsAt off := by
  interval_cases k <;> obtain rfl := Option.some.inj h <;> trivial

/-- A word of an array is found at its own offsets only. -/
theorem standsAt_of_elementAt {off : Nat} {e : Element} (h : elementAt off = some e) : e.StandsAt off := by
  rcases elementAt_cases off with ⟨k, hk, _, he⟩ | ⟨he, _⟩ | ⟨⟨hlow, hhigh⟩, he⟩ | ⟨⟨hlow, hhigh⟩, he⟩ | ⟨_, he⟩ |
    ⟨_, he⟩ | ⟨_, he⟩ | ⟨⟨hlow, hhigh⟩, he⟩ <;> rw [he] at h
  · exact standsAt_of_scalarElements hk h off
  · cases h
  all_goals obtain rfl := Option.some.inj h
  · exact ⟨hlow, hhigh, rfl⟩
  · exact ⟨hlow, hhigh, rfl⟩
  · trivial
  · trivial
  · trivial
  · exact ⟨hlow, hhigh, rfl⟩

/-- Where a word of KEY or MSG has its bytes, `none` for every other word (20_memory.md R67). -/
def Element.byteBase : Element → Option Nat
  | .key t => some (keyBase + 8 * t)
  | .msg t => some (msgBase + 8 * t)
  | _ => none

/-- Storing a word of KEY or MSG writes its eight bytes. -/
theorem writeElement_mem_of_byteBase {e : Element} {base : Nat} (h : e.byteBase = some base) (v : Word) (s : State) :
    (writeElement v s e).mem = Memory.writeWord s.mem base v := by
  cases e <;> simp only [Element.byteBase, reduceCtorEq, Option.some.injEq] at h <;> subst h <;> rfl

/-- Storing any other word leaves the memory alone. -/
theorem writeElement_mem_of_no_byteBase {e : Element} (h : e.byteBase = none) (v : Word) (s : State) :
    (writeElement v s e).mem = s.mem := by
  cases e <;> simp only [Element.byteBase, reduceCtorEq] at h <;> rfl

/-- The eight bytes of a mapped word of KEY or MSG lie in the regions (20_memory.md R67; MSG_CAP_BYTES is a multiple
of 8, 00_scope.md R11). -/
theorem inByteRegion_of_byteBase {off base a : Nat} {e : Element} (he : elementAt off = some e)
    (hbase : e.byteBase = some base) (hlow : base ≤ a) (hhigh : a < base + 8) : InByteRegion a := by
  have hcap := Config.msgCapBytes_legal.1
  cases e <;> simp only [Element.byteBase, reduceCtorEq, Option.some.injEq, keyBase, msgBase] at hbase
  case key t =>
    obtain ⟨hoff, hoff', hindex⟩ := standsAt_of_elementAt he
    left
    omega
  case msg t =>
    obtain ⟨hoff, hoff', hindex⟩ := standsAt_of_elementAt he
    right
    omega

/-- The memory invariant reads the memory alone. -/
theorem MemoryInv.of_mem_eq {s t : State} (h : MemoryInv s) (hmem : t.mem = s.mem) : MemoryInv t :=
  ⟨hmem.symm ▸ h.canonical, hmem.symm ▸ h.inRegions⟩

theorem memoryInv_of_mem_nil {s : State} (hmem : s.mem = []) : MemoryInv s :=
  ⟨hmem ▸ Memory.wf_nil, by simp [hmem]⟩

/-- Storing a mapped word keeps the memory invariant. -/
theorem MemoryInv.writeElement {s : State} (h : MemoryInv s) {off : Nat} {e : Element} (he : elementAt off = some e)
    (v : Word) : MemoryInv (writeElement v s e) := by
  cases hbase : e.byteBase with
  | none => exact h.of_mem_eq (writeElement_mem_of_no_byteBase hbase v s)
  | some base =>
    have hmem := writeElement_mem_of_byteBase hbase v s
    refine ⟨hmem ▸ Memory.wf_writeWord s.mem base v h.canonical, fun c hc => ?_⟩
    rw [hmem] at hc
    rcases Memory.mem_writeWord s.mem base v c hc with ⟨hlow, hhigh⟩ | hbefore
    · exact inByteRegion_of_byteBase he hbase hlow hhigh
    · exact h.inRegions c hbefore

/-- A command that succeeds leaves the memory alone, or clears it with SOFT_RESET (20_memory.md R77). -/
theorem mem_of_succeeds {s t : State} {i : Instr} (h : Succeeds s t i) : t.mem = s.mem ∨ t.mem = [] := by
  cases i with
  | softReset => obtain rfl := h; exact .inr rfl
  | nop | encodeNode => obtain rfl := h; exact .inl rfl
  | configure | loadN => obtain ⟨_, _, rfl⟩ := h; exact .inl rfl
  | step | round | readCv => obtain ⟨_, rfl⟩ := h; exact .inl rfl
  | compress => obtain ⟨_, _, _, rfl⟩ := h; exact .inl rfl
  | hash => obtain ⟨_, _, _, _, rfl⟩ := h; exact .inl rfl

end Sys2Proof.Machine
end

section
/-! SUPPORT. The accumulator's run stays within its capacity (44_cv_accumulator.md R240, R248): each level has at most as
many nodes as the one below it, and the first at most ACC_CAP. -/

namespace Sys2Proof.Machine

/-- The accumulator within its capacity, apart from the state it stands in. -/
structure Accumulator.Fits (acc : Accumulator) : Prop where
  lvlInFits : acc.lvlIn.length ≤ Config.accCap
  lvlOutFits : acc.lvlOut.length ≤ Config.accCap
  levelFits : acc.curLevel ≤ 65

theorem accumulatorInv_iff (s : State) : AccumulatorInv s ↔ s.acc.Fits :=
  ⟨fun ⟨hin, hout, hlevel⟩ => ⟨hin, hout, hlevel⟩, fun ⟨hin, hout, hlevel⟩ => ⟨hin, hout, hlevel⟩⟩

/-- A chaining value is always within the capacity. -/
theorem accCap_pos : 1 ≤ Config.accCap := Nat.le_max_left 1 _

section
variable (pb : ParamBlock) {msg : List Byte} {acc : Accumulator}

/-- A level takes in at most ACC_CAP chaining values, or the message, so it has at most ACC_CAP nodes. -/
theorem parNodes_le_accCap (hmsg : msg.length ≤ Config.msgCapBytes) (hin : acc.lvlIn.length ≤ Config.accCap) :
    parNodes msg acc ≤ Config.accCap := by
  unfold parNodes
  split
  · simp only [Config.accCap, ceilDiv]
    omega
  · have hpos := accCap_pos
    simp only [ceilDiv]
    omega

/-- LVL_OUT after a PAR level has one chaining value per node (R244). -/
theorem accPar_lvlOut_length (h : LevelStart acc) : (accPar pb msg acc).lvlOut.length = parNodes msg acc := by
  rw [accPar, foldl_accAppend, h.lvlOutEmpty]
  simp

theorem accPar_lvlIn : (accPar pb msg acc).lvlIn = acc.lvlIn := by
  rw [accPar, foldl_accAppend]

theorem accPar_curLevel : (accPar pb msg acc).curLevel = acc.curLevel := by
  rw [accPar, foldl_accAppend]

/-- From the start of any level on, with `n` PAR levels left, the run ends within its capacity. -/
theorem accLevels_fits (hmsg : msg.length ≤ Config.msgCapBytes) (n : Nat) (hstart : LevelStart acc)
    (hin : acc.lvlIn.length ≤ Config.accCap) (hlevel : acc.curLevel + n ≤ 65) : (accLevels pb msg n acc).1.Fits := by
  induction n generalizing acc with
  | zero =>
    rw [accLevels, accSeq_eq]
    exact ⟨hin, by simp [hstart.lvlOutEmpty], hlevel⟩
  | succ n ih =>
    have hout : (accPar pb msg acc).lvlOut.length ≤ Config.accCap := by
      rw [accPar_lvlOut_length pb hstart]
      exact parNodes_le_accCap hmsg hin
    have hnext : (accAdvance (accPar pb msg acc)).curLevel = acc.curLevel + 1 :=
      congrArg (· + 1) (accPar_curLevel pb)
    rw [accLevels]
    split
    · exact ⟨by rwa [accPar_lvlIn], hout, by rw [accPar_curLevel]; omega⟩
    · exact ih (levelStart_accAdvance pb msg hstart) hout (by omega)

/-- The whole run of a message the block accepts, under a legal PB_L. -/
theorem accRun_fits (hmsg : msg.length ≤ Config.msgCapBytes) (hl : pb.l.toNat ≤ 64) : (accRun pb msg).1.Fits :=
  accLevels_fits pb hmsg pb.l.toNat levelStart_accStart (Nat.zero_le _) (by simp only [accStart]; omega)

end

/-- The empty accumulator of the reset table. -/
theorem reset_acc_fits : State.reset.acc.Fits := ⟨Nat.zero_le _, Nat.zero_le _, Nat.zero_le _⟩

/-- A command that succeeds leaves the accumulator alone, empties it with SOFT_RESET, or has run it over an accepted
message with HASH (20_memory.md R77). -/
theorem acc_of_succeeds {s t : State} {i : Instr} (h : Succeeds s t i) :
    t.acc = s.acc ∨ t.acc = State.reset.acc ∨
    (s.status.pbValid = true ∧ ∃ msg, msg.length ≤ Config.msgCapBytes ∧ t.acc = (accRun s.pb msg).1) := by
  cases i with
  | hash =>
    obtain ⟨hpb, hlen, msg, hmsg, rfl⟩ := h
    have hlength : msg.length = s.msgLen.toNat := Memory.length_of_readBytes s.mem _ msgBase msg hmsg
    exact .inr (.inr ⟨hpb, msg, hlength ▸ hlen, rfl⟩)
  | softReset => obtain rfl := h; exact .inr (.inl rfl)
  | nop | encodeNode => obtain rfl := h; exact .inl rfl
  | configure | loadN => obtain ⟨_, _, rfl⟩ := h; exact .inl rfl
  | step | round | readCv => obtain ⟨_, rfl⟩ := h; exact .inl rfl
  | compress => obtain ⟨_, _, _, rfl⟩ := h; exact .inl rfl

end Sys2Proof.Machine
end

section
/-! PROOFS. The invariants of control, memory and accumulator (10_state.md, 20_memory.md, 44_cv_accumulator.md), over the
five kinds of step. -/

namespace Sys2Proof.Machine

/-- The control invariant does not read the schedule. -/
theorem ControlInv.withMoves {s : State} (h : ControlInv s) (rest : List HostMove) : ControlInv (s.withMoves rest) :=
  { h with }

/-- Settles O55: a CMD write and a completion set the handshake anew, and no other step touches it; only CONFIGURE
latches a parameter block, which it has checked. -/
theorem stepKeepsControlInvariant : Obligations.StepKeepsControlInvariant := by
  intro s t hinv h
  cases stepEffect h with
  | quiet hsame hfault => exact hinv.of_sameApartFromFault hsame (hfault hinv.faultIsASet)
  | write rest off v e _ _ heq => exact heq ▸ (hinv.withMoves rest).writeElement v e
  | reset rest heq => exact heq ▸ controlInv_resetBlock hinv.faultIsASet
  | error rest code hcode hheight hend => exact (hinv.withMoves rest).of_endsInError hcode hheight hend
  | success rest i _ hend => exact (hinv.withMoves rest).of_succeeds hend

/-- Settles O56: the only writes to the memory are those of mapped words of KEY and MSG, and the two resets. -/
theorem stepKeepsMemoryInvariant : Obligations.StepKeepsMemoryInvariant := by
  intro s t hinv h
  cases stepEffect h with
  | quiet hsame _ => exact hinv.of_mem_eq (by rw [hsame])
  | write rest off v e _ he heq => exact heq ▸ (hinv.of_mem_eq (t := s.withMoves rest) rfl).writeElement he v
  | reset rest heq => exact memoryInv_of_mem_nil (by rw [heq, resetBlock_mem])
  | error rest code _ _ hend => exact hinv.of_mem_eq (by rw [hend, State.withMoves_mem])
  | success rest i _ hend =>
    rcases mem_of_succeeds hend with hmem | hmem
    · exact hinv.of_mem_eq hmem
    · exact memoryInv_of_mem_nil hmem

/-- Settles O58: of the steps that change the accumulator only HASH puts anything in it, and PB_L is legal. -/
theorem stepKeepsAccumulatorInvariant : Obligations.StepKeepsAccumulatorInvariant := by
  intro s t hcontrol hinv h
  rw [accumulatorInv_iff] at hinv ⊢
  cases stepEffect h with
  | quiet hsame _ => rwa [hsame]
  | write rest off v e _ _ heq => rwa [heq, writeElement_acc]
  | reset rest heq => exact heq ▸ reset_acc_fits
  | error rest code _ _ hend => rwa [hend]
  | success rest i _ hend =>
    rcases acc_of_succeeds hend with hacc | hacc | ⟨hpb, msg, hmsg, hacc⟩ <;> rw [hacc]
    · exact hinv
    · exact reset_acc_fits
    · obtain ⟨_, _, _, hl, _⟩ := hcontrol.pbInRange hpb
      exact accRun_fits s.pb hmsg hl

/-- Settles O59: the reset block is legal from any state with FAULT a set, and the reset state is its own. -/
theorem resetMeetsTheInvariants : Obligations.ResetMeetsTheInvariants :=
  ⟨controlInv_resetBlock (s := State.reset) List.nodup_nil, memoryInv_of_mem_nil rfl,
    fun h => absurd h Bool.false_ne_true, (accumulatorInv_iff _).mpr reset_acc_fits⟩

end Sys2Proof.Machine
end

section
/-! SUPPORT. The window over one step (10_state.md R33 to R35, 40_round_function.md R128 to R132, 41_compression.md R153):
what each command that writes it leaves, and that no other step moves it. -/

namespace Sys2Proof.Machine

/-- The operand check of LOAD_N and COMPRESS passes only when every word of N_BUF is defined. -/
theorem nBuf_defined_of_nBufWords {s : State} {n : Words89} (h : nBufWords s = some n) (j : Nat) (hj : j < 89) :
    s.nBuf[j].defined = true := by
  by_contra hundefined
  rw [nBufWords_eq_none s j hj (by simpa using hundefined)] at h
  cases h

/-- STEP and ROUND go on in the array the window holds (R126, R132). -/
theorem holdsArray_of_stepWindow {s t : State} {m k : Nat} {n : Words89} (hwin : s.status.winValid = true)
    (hholds : HoldsArray s.win n k) (h : stepWindow m s = .next t) :
    t.status.winValid = true ∧ HoldsArray t.win n (k + m) := by
  obtain rfl := Host.Outcome.next.inj ((stepWindow_of_winValid hwin m).symm.trans h)
  exact ⟨hwin, holdsArray_runSteps m s.win n k hholds⟩

/-- LOAD_N starts the array of N_BUF (R128). -/
theorem holdsArray_of_loadN {s t : State} {n : Words89} (hn : nBufWords s = some n) (h : exec .loadN s = .next t) :
    t.status.winValid = true ∧ HoldsArray t.win n 0 := by
  obtain rfl := Host.Outcome.next.inj ((exec_loadN_of_nBufWords hn).symm.trans h)
  exact ⟨rfl, holdsArray_loadWindow n⟩

/-- COMPRESS leaves the array of N_BUF after 16·PB_R steps (41_compression.md R153). -/
theorem holdsArray_of_compress {s t : State} {n : Words89} (hpb : s.status.pbValid = true) (hn : nBufWords s = some n)
    (h : exec .compress s = .next t) : t.status.winValid = true ∧ HoldsArray t.win n (16 * s.pb.r.toNat) := by
  obtain rfl := Host.Outcome.next.inj ((exec_compress_of_nBufWords hpb hn).symm.trans h)
  have hholds := holdsArray_runSteps (16 * s.pb.r.toNat) _ n 0 (holdsArray_loadWindow n)
  rw [Nat.zero_add] at hholds
  exact ⟨rfl, hholds⟩

/-- The commands that write the window when they run on `s` (20_memory.md R77). -/
def WindowWriter (s : State) (i : Instr) : Prop :=
  (s.status.winValid = true ∧ ∃ m, i = .step m ∨ i = .round m) ∨
  ((∀ j (h : j < 89), s.nBuf[j].defined = true) ∧ (i = .loadN ∨ (i = .compress ∧ s.status.pbValid = true)))

theorem writesWindow_of_windowWriter {s : State} {i : Instr} (hruns : CoreRuns s i) (h : WindowWriter s i) :
    WritesWindow s := by
  rcases h with ⟨hwin, m, rfl | rfl⟩ | ⟨hdefined, rfl | ⟨rfl, hpb⟩⟩
  · exact .inl ⟨hwin, m, .inl hruns⟩
  · exact .inl ⟨hwin, m, .inr hruns⟩
  · exact .inr ⟨hdefined, .inl hruns⟩
  · exact .inr ⟨hdefined, .inr ⟨hruns, hpb⟩⟩

/-- Any other command that succeeds with WIN_VALID = 1 found it so and leaves the window as it was. -/
theorem win_of_succeeds {s t : State} {i : Instr} (h : Succeeds s t i) (hother : ¬WindowWriter s i)
    (hvalid : t.status.winValid = true) : s.status.winValid = true ∧ t.win = s.win := by
  cases i with
  | softReset => obtain rfl := h; exact absurd hvalid Bool.false_ne_true
  | hash => obtain ⟨_, _, _, _, rfl⟩ := h; exact absurd hvalid Bool.false_ne_true
  | compress =>
    obtain ⟨hpb, n, hn, _⟩ := h
    exact absurd (.inr ⟨nBuf_defined_of_nBufWords hn, .inr ⟨rfl, hpb⟩⟩) hother
  | loadN =>
    obtain ⟨n, hn, _⟩ := h
    exact absurd (.inr ⟨nBuf_defined_of_nBufWords hn, .inl rfl⟩) hother
  | step m =>
    obtain ⟨hwin, _⟩ := h
    exact absurd (.inl ⟨hwin, m, .inl rfl⟩) hother
  | round m =>
    obtain ⟨hwin, _⟩ := h
    exact absurd (.inl ⟨hwin, m, .inr rfl⟩) hother
  | nop | encodeNode => obtain rfl := h; exact ⟨hvalid, rfl⟩
  | configure => obtain ⟨_, _, rfl⟩ := h; exact ⟨hvalid, rfl⟩
  | readCv => obtain ⟨_, rfl⟩ := h; exact ⟨hvalid, rfl⟩

/-- Storing a word, CMD included, leaves WIN_VALID alone (20_memory.md R73). -/
theorem writeElement_winValid (v : Word) (s : State) (e : Element) :
    (writeElement v s e).status.winValid = s.status.winValid := by
  rw [writeElement_status]
  split <;> rfl

/-- A step that writes no window and ends with WIN_VALID = 1 found it so and leaves the window as it was. -/
theorem win_of_not_writesWindow {s t : State} (h : step s = .next t) (hother : ¬WritesWindow s)
    (hvalid : t.status.winValid = true) : s.status.winValid = true ∧ t.win = s.win := by
  cases stepEffect h with
  | quiet hsame _ =>
    rw [hsame] at hvalid ⊢
    exact ⟨hvalid, rfl⟩
  | write rest off v e _ _ heq =>
    rw [heq, writeElement_winValid] at hvalid
    exact ⟨hvalid, by rw [heq, writeElement_win, State.withMoves_win]⟩
  | reset rest heq =>
    rw [heq] at hvalid
    exact absurd hvalid Bool.false_ne_true
  | error rest code _ _ hend =>
    rw [hend] at hvalid ⊢
    exact ⟨hvalid, rfl⟩
  | success rest i hruns hend =>
    have hnot : ¬WindowWriter s i := fun hwriter => hother (writesWindow_of_windowWriter hruns hwriter)
    exact win_of_succeeds (s := s.withMoves rest) hend hnot hvalid

/-- When the core runs `i`, the next state is that of its execution. -/
theorem exec_of_coreRuns {s t : State} {i : Instr} (hruns : CoreRuns s i) (h : step s = .next t) :
    exec i (s.withMoves s.host.moves.tail) = .next t :=
  (step_of_coreRuns hruns).symm.trans h

section
variable {s t : State} {n : Words89} {k m : Nat} (h : step s = .next t)
include h

/-! The steps that write the window, each on the state without the core's turn. -/

theorem holdsArray_of_coreRuns_step (hwin : s.status.winValid = true) (hholds : HoldsArray s.win n k)
    (hruns : CoreRuns s (.step m)) : t.status.winValid = true ∧ HoldsArray t.win n (k + m) :=
  holdsArray_of_stepWindow (s := s.withMoves s.host.moves.tail) hwin hholds (exec_of_coreRuns hruns h)

theorem holdsArray_of_coreRuns_round (hwin : s.status.winValid = true) (hholds : HoldsArray s.win n k)
    (hruns : CoreRuns s (.round m)) : t.status.winValid = true ∧ HoldsArray t.win n (k + 16 * m) :=
  holdsArray_of_stepWindow (s := s.withMoves s.host.moves.tail) hwin hholds (exec_of_coreRuns hruns h)

theorem holdsArray_of_coreRuns_loadN (hn : nBufWords s = some n) (hruns : CoreRuns s .loadN) :
    t.status.winValid = true ∧ HoldsArray t.win n 0 :=
  holdsArray_of_loadN (s := s.withMoves s.host.moves.tail) hn (exec_of_coreRuns hruns h)

theorem holdsArray_of_coreRuns_compress (hpb : s.status.pbValid = true) (hn : nBufWords s = some n)
    (hruns : CoreRuns s .compress) : t.status.winValid = true ∧ HoldsArray t.win n (16 * s.pb.r.toNat) :=
  holdsArray_of_compress (s := s.withMoves s.host.moves.tail) hpb hn (exec_of_coreRuns hruns h)

end

/-- A step that writes the window leaves an array of some input in it, if it held one before. -/
theorem windowInv_of_writesWindow {s t : State} (h : step s = .next t) (hinv : WindowInv s) (hwrites : WritesWindow s) :
    WindowInv t := by
  intro _
  rcases hwrites with ⟨hwin, m, hruns | hruns⟩ | ⟨hdefined, hruns | ⟨hruns, hpb⟩⟩
  · obtain ⟨n, k, hholds⟩ := hinv hwin
    exact ⟨n, _, (holdsArray_of_coreRuns_step h hwin hholds hruns).2⟩
  · obtain ⟨n, k, hholds⟩ := hinv hwin
    exact ⟨n, _, (holdsArray_of_coreRuns_round h hwin hholds hruns).2⟩
  · obtain ⟨n, hn, _⟩ := exists_nBufWords s hdefined
    exact ⟨n, _, (holdsArray_of_coreRuns_loadN h hn hruns).2⟩
  · obtain ⟨n, hn, _⟩ := exists_nBufWords s hdefined
    exact ⟨n, _, (holdsArray_of_coreRuns_compress h hpb hn hruns).2⟩

/-- Every step keeps the window invariant. -/
theorem windowInv_of_step {s t : State} (h : step s = .next t) (hinv : WindowInv s) : WindowInv t := by
  by_cases hwrites : WritesWindow s
  · exact windowInv_of_writesWindow h hinv hwrites
  · intro hvalid
    obtain ⟨hbefore, hsame⟩ := win_of_not_writesWindow h hwrites hvalid
    exact hsame ▸ hinv hbefore

end Sys2Proof.Machine
end

section
/-! PROOFS. The window (40_round_function.md sections 2 and 3). -/

namespace Sys2Proof.Machine

/-- Settles O57: each command that writes the window by its own lemma, every other step by `win_of_not_writesWindow`. -/
theorem stepKeepsWindowInvariant : Obligations.StepKeepsWindowInvariant := by
  intro s t h
  refine ⟨windowInv_of_step h, fun n k hwin hholds => ⟨fun m => ?_, fun m => ?_, fun hother hvalid => ?_⟩,
    fun n hdefined => ?_, win_of_not_writesWindow h⟩
  · exact holdsArray_of_coreRuns_step h hwin hholds
  · exact holdsArray_of_coreRuns_round h hwin hholds
  · exact (win_of_not_writesWindow h hother hvalid).2 ▸ hholds
  · have hn := nBufWords_eq_some s n hdefined
    exact ⟨holdsArray_of_coreRuns_loadN h hn, fun hruns hpb => holdsArray_of_coreRuns_compress h hpb hn hruns⟩

/-- Settles O35: LOAD_N starts the array of N_BUF, and STEP k goes k steps on in it; below 2^64 the counter has not
wrapped. -/
theorem windowHoldsTheWorkingArray : Obligations.WindowHoldsTheWorkingArray := by
  intro s n k hdefined hk
  have hload := exec_loadN_of_nBufWords (nBufWords_eq_some s n hdefined)
  obtain ⟨hwords, hctr, hreg⟩ := holdsArray_runSteps k (loadWindow n) n 0 (holdsArray_loadWindow n)
  rw [Nat.zero_add] at hwords hctr hreg
  have hcount : (runSteps k (loadWindow n)).stepCtr.toNat = k := by
    rw [hctr, BitVec.toNat_ofNat, Nat.mod_eq_of_lt hk]
  have hstep := stepWindow_of_winValid
    (s := { s with win := loadWindow n, status := { Success s.status with winValid := true } }) rfl k
  exact ⟨_, _, hload, hstep, hwords, hcount, hreg⟩

/-- Settles O30: STEP 1 runs the sequencer once, whose counter is the successor modulo 2^64. -/
theorem stepOneIsTheSequencerStep : Obligations.StepOneIsTheSequencerStep := by
  intro s hwin
  have hctr : s.win.stepCtr + 1 = BitVec.ofNat 64 ((s.win.stepCtr.toNat + 1) % 2 ^ 64) :=
    BitVec.eq_of_toNat_eq (by simp)
  rw [← hctr]
  exact stepWindow_of_winValid hwin 1

end Sys2Proof.Machine
end

section
/-! SUPPORT. The offset of each word of the register map (30_encoding.md R94), and that storing one word leaves what every
other word reads as (20_memory.md R65, R66, R71). -/

namespace Sys2Proof.Machine

/-- Where a word of the map stands (R94). -/
def Element.offset : Element → Nat
  | .cmd => 0x000
  | .status => 0x008
  | .cfgD => 0x010
  | .cfgKeylen => 0x018
  | .cfgL => 0x020
  | .cfgR => 0x028
  | .cfgFlags => 0x030
  | .msgLen => 0x038
  | .encLevel => 0x040
  | .encIndex => 0x048
  | .encZ => 0x050
  | .encP => 0x058
  | .pbD => 0x060
  | .pbKeylen => 0x068
  | .pbL => 0x070
  | .pbR => 0x078
  | .stepCtr => 0x080
  | .sReg => 0x088
  | .key t => keyBase + 8 * t
  | .nBuf t => 0x200 + 8 * t
  | .cvOut t => 0x500 + 8 * t
  | .digest t => 0x580 + 8 * t
  | .w t => 0x600 + 8 * t
  | .msg t => msgBase + 8 * t

/-- Words stand at multiples of 8. -/
theorem Element.offset_mod (e : Element) : e.offset % 8 = 0 := by
  cases e <;> simp [Element.offset, keyBase, msgBase]

/-- The scalar registers stand in order from offset 0. -/
theorem offset_of_scalarElements {k : Nat} {e : Element} (hk : k < 18) (h : scalarElements[k]? = some e) :
    e.offset = 8 * k := by
  interval_cases k <;> obtain rfl := Option.some.inj h <;> rfl

/-- The word an offset belongs to stands at the multiple of 8 below it. -/
theorem offset_of_elementAt {off : Nat} {e : Element} (h : elementAt off = some e) : e.offset = 8 * (off / 8) := by
  rcases elementAt_cases off with ⟨k, hk, hd, he⟩ | ⟨he, _⟩ | ⟨hr, he⟩ | ⟨hr, he⟩ | ⟨hr, he⟩ | ⟨hr, he⟩ | ⟨hr, he⟩ |
    ⟨hr, he⟩ <;> rw [he] at h
  · exact hd ▸ offset_of_scalarElements hk h
  · cases h
  all_goals
    obtain rfl := Option.some.inj h
    simp only [Element.offset, keyBase, msgBase]
    omega

theorem offset_of_elementAt_aligned {off : Nat} {e : Element} (h : elementAt off = some e) (ha : off % 8 = 0) :
    e.offset = off := by
  rw [offset_of_elementAt h]
  omega

theorem Element.offset_of_byteBase {e : Element} {base : Nat} (h : e.byteBase = some base) : e.offset = base := by
  cases e <;> simp only [Element.byteBase, reduceCtorEq, Option.some.injEq] at h <;> exact h

/-- Only CMD is write-only (R94). -/
theorem Element.access_eq_wo_iff (e : Element) : e.access = .wo ↔ e = .cmd := by
  cases e <;> simp [Element.access]

/-- A writable offset other than CMD's is that of a readable and writable word. -/
theorem exists_element_of_readWrite {off : Nat} (h : ReadWrite off) : ∃ e, elementAt off = some e ∧ e.access = .rw := by
  have hmapped := elementAt_eq_none_iff off
  have hreadOnly := elementAt_readOnly_iff off
  have hcmd := elementAt_eq_cmd_iff off
  unfold ReadWrite at h
  cases he : elementAt off with
  | none =>
    have hgap := hmapped.mp he
    omega
  | some e =>
    refine ⟨e, rfl, ?_⟩
    cases hacc : e.access with
    | rw => rfl
    | ro =>
      have hro := hreadOnly.mp (by simp [he, hacc])
      omega
    | wo =>
      have hlow := hcmd.mp (by rw [he, (Element.access_eq_wo_iff e).mp hacc])
      omega

theorem Element.byteBase_key (t : Nat) : (Element.key t).byteBase = some (Element.key t).offset := rfl

theorem Element.byteBase_msg (t : Nat) : (Element.msg t).byteBase = some (Element.msg t).offset := rfl

/-- An offset of the KEY or the MSG region is that of a readable and writable word of it. -/
theorem exists_element_of_inByteRegion {off : Nat} (h : InByteRegion off) (ha : off % 8 = 0) :
    ∃ e, elementAt off = some e ∧ e.access = .rw ∧ e.byteBase = some off := by
  rcases h with ⟨hlow, hhigh⟩ | ⟨hlow, hhigh⟩
  · have he := elementAt_key off hlow hhigh
    exact ⟨_, he, rfl, by rw [Element.byteBase_key, offset_of_elementAt_aligned he ha]⟩
  · have he := elementAt_msg off hlow hhigh
    exact ⟨_, he, rfl, by rw [Element.byteBase_msg, offset_of_elementAt_aligned he ha]⟩

/-- A word of KEY or MSG reads as the word of its bytes (20_memory.md R66). -/
theorem readElement_of_byteBase {e : Element} {base : Nat} (h : e.byteBase = some base) (s : State) :
    readElement s e = Memory.readWord s.mem base := by
  cases e <;> simp only [Element.byteBase, reduceCtorEq, Option.some.injEq] at h <;> subst h <;> rfl

@[simp] theorem writeElement_host (v : Word) (s : State) (e : Element) : (writeElement v s e).host = s.host := by
  rw [writeElement_eq]

/-- Storing a word leaves every byte outside its own eight. -/
theorem read_writeElement_mem {e : Element} {a : Nat} (h : a < e.offset ∨ e.offset + 8 ≤ a) (v : Word) (s : State) :
    Memory.read (writeElement v s e).mem a = Memory.read s.mem a := by
  cases hbase : e.byteBase with
  | none => rw [writeElement_mem_of_no_byteBase hbase]
  | some base =>
    have hoffset := Element.offset_of_byteBase hbase
    rw [writeElement_mem_of_byteBase hbase, Memory.read_writeWord, if_neg (by omega)]

/-- Storing a word other than N_BUF[t] leaves N_BUF[t]. -/
theorem writeElement_nBuf_getElem? {e : Element} {t : Nat} (h : e ≠ .nBuf t) (v : Word) (s : State) :
    (writeElement v s e).nBuf[t]? = s.nBuf[t]? := by
  cases e with
  | nBuf j =>
    have hne : t ≠ j := fun htj => h (htj ▸ rfl)
    by_cases ht : t < 89
    · simp [writeElement, ht, hne]
    · simp [ht]
  | _ => rfl

/-- A word of KEY or MSG other than the one stored reads as before: words stand at multiples of 8, so their bytes do not
meet. -/
theorem readWord_writeElement_mem {e e' : Element} (hne : e.offset ≠ e'.offset) (v : Word) (s : State) :
    Memory.readWord (writeElement v s e).mem e'.offset = Memory.readWord s.mem e'.offset := by
  have hmod := e.offset_mod
  have hmod' := e'.offset_mod
  exact Memory.readWord_congr _ _ _ fun a ha => read_writeElement_mem (by omega) v s

/-- Storing one word leaves what every other word reads as. -/
theorem readElement_writeElement_of_ne {e e' : Element} (hcmd : e ≠ .cmd) (hne : e.offset ≠ e'.offset) (v : Word)
    (s : State) : readElement (writeElement v s e) e' = readElement s e' := by
  have hdiff : e ≠ e' := fun h => hne (congrArg Element.offset h)
  cases e' with
  | key t => exact readWord_writeElement_mem hne v s
  | msg t => exact readWord_writeElement_mem hne v s
  | nBuf t =>
    simp only [readElement]
    rw [writeElement_nBuf_getElem? hdiff]
  | _ =>
    rw [writeElement_eq]
    simp [readElement, hdiff, hcmd]

/-- A word stored is read back, CFG_FLAGS with its reserved bits apart (10_state.md R25). -/
theorem readElement_writeElement_self {e : Element} (hrw : e.access = .rw) (hflags : e ≠ .cfgFlags)
    (hnBuf : ∀ t, e = .nBuf t → t < 89) (v : Word) (s : State) : readElement (writeElement v s e) e = some v := by
  cases hbase : e.byteBase with
  | some base =>
    rw [readElement_of_byteBase hbase, writeElement_mem_of_byteBase hbase, Memory.readWord_writeWord]
  | none =>
    cases e with
    | cfgFlags => exact absurd rfl hflags
    | nBuf t => simp [readElement, writeElement, hnBuf t rfl]
    | key t => cases hbase
    | msg t => cases hbase
    | cfgD | cfgKeylen | cfgL | cfgR | msgLen | encLevel | encIndex | encZ | encP => rfl
    | _ => cases hrw

/-- A mapped offset's N_BUF index is below 89. -/
theorem nBuf_index_lt {off : Nat} {e : Element} (he : elementAt off = some e) (t : Nat) (h : e = .nBuf t) : t < 89 := by
  subst h
  obtain ⟨hlow, hhigh, hindex⟩ := standsAt_of_elementAt he
  omega

/-- An 8-byte write of a word other than CMD, with BUSY = 0, stores it and leaves BUSY = 0. -/
theorem hostWrite_of_readWrite {s : State} {off : Nat} {e : Element} (he : elementAt off = some e)
    (hrw : e.access = .rw) (ha : off % 8 = 0) (hidle : s.status.busy = false) (v : Word) :
    hostWrite off 8 v s = writeElement v s e ∧ (writeElement v s e).status.busy = false := by
  have hcmd : e ≠ .cmd := fun h => by simp [h, Element.access] at hrw
  exact ⟨hostWrite_eq off v s e he ha hidle (by simp [hrw]), by rw [writeElement_status, if_neg hcmd, hidle]⟩

/-- Where a word is defined, its offset reads as its value. -/
theorem readsAs_of_readElement {s : State} {off : Nat} {v : Word} (e : Element) (he : elementAt off = some e)
    (ha : off % 8 = 0) (hv : readElement s e = some v) : ReadsAs s off v :=
  ⟨by rw [readValue, he, Option.bind_some, hv], fun hidle => hostRead_eq off s e v he ha hidle hv⟩

/-- Where a word is undefined, a read records F_UNDEFINED_READ alone (20_memory.md R70). -/
theorem recordsOnly_of_undefined {s : State} {off : Nat} (e : Element) (he : elementAt off = some e)
    (ha : off % 8 = 0) (hidle : s.status.busy = false) (hcmd : e.access ≠ .wo) (hv : readElement s e = none) :
    RecordsOnly { s with host := { s.host with reads := s.host.reads ++ [none] } } (hostRead off 8 s)
      .undefinedRead := by
  rw [hostRead_undefined off s e he ha hidle hcmd hv]
  refine ⟨fun g => mem_recordFault _ g s, ?_⟩
  rw [recordFault_eq]
  rfl

/-- A read's faults and value depend on the block alone, not on FAULT or the host. -/
theorem readFaults_of_sameApartFromFault {s t : State} (h : SameApartFromFault s t) (off width : Nat) :
    readFaults off width t = readFaults off width s := by
  rw [h]
  unfold readFaults
  cases elementAt off with
  | none => rfl
  | some e => cases e <;> rfl

theorem readValue_of_sameApartFromFault {s t : State} (h : SameApartFromFault s t) (off : Nat) :
    readValue off t = readValue off s := by
  rw [h]
  unfold readValue
  cases elementAt off with
  | none => rfl
  | some e => cases e <;> rfl

/-- A read of STATUS, BUSY or not, meets no rule of R279 (20_memory.md R64). -/
theorem readFaults_status (s : State) : readFaults 0x008 8 s = [] := by
  refine List.eq_nil_iff_forall_not_mem.mpr fun f hf => ?_
  have he : elementAt 0x008 = some .status := rfl
  have hmapped : ¬Unmapped 0x008 := by rw [unmapped_iff, he]; exact Option.some_ne_none _
  simp [mem_readFaults, hmapped, he, readElement] at hf

/-- The read of STATUS gives STATUS. -/
theorem hostRead_status (s : State) : hostRead 0x008 8 s = noteRead (some s.status.word) s := by
  rw [hostRead, readFaults_status]
  rfl

/-- What a read notes for the host: the value when it meets no fault, else nothing. -/
def readResult (off width : Nat) (s : State) : Option Word :=
  if readFaults off width s = [] then readValue off s else none

/-- A read changes FAULT and the host's record alone (20_memory.md R71). -/
theorem hostRead_effect (off width : Nat) (s : State) : SameApartFromFault s (hostRead off width s) ∧
    (hostRead off width s).host = { s.host with reads := s.host.reads ++ [readResult off width s] } := by
  rcases hostRead_cases off width s with ⟨hnone, h⟩ | ⟨hfaults, h⟩
  · rw [h, readResult, if_pos hnone]
    exact ⟨rfl, rfl⟩
  · rw [h, readResult, if_neg hfaults, recordFaults_eq]
    exact ⟨rfl, rfl⟩

/-! The fields of STATUS that are wider than one bit (10_state.md R29, R45). -/

theorem status_word_errcode (st : Status) : st.word.extractLsb' 8 8 = st.errcode.code := by
  rw [Status.word]
  iterate 4 rw [BitVec.extractLsb'_append_eq_of_le (by decide)]
  exact BitVec.extractLsb'_append_eq_right

theorem status_word_low_reserved (st : Status) : st.word.extractLsb' 3 5 = 0 := by
  rw [Status.word]
  iterate 3 rw [BitVec.extractLsb'_append_eq_of_le (by decide)]
  exact BitVec.extractLsb'_append_eq_right

theorem status_word_high_reserved (st : Status) : st.word.extractLsb' 20 44 = 0 := by
  rw [Status.word]
  iterate 9 rw [BitVec.extractLsb'_append_eq_of_le (by decide)]
  exact BitVec.extractLsb'_eq_self

/-- R_OVERRIDE reads as bit 0 of CFG_FLAGS, the other bits as 0 (10_state.md R25). -/
theorem readsAs_cfgFlags (s : State) : ReadsAs s 0x030 (if s.rOverride then 1 else 0) := by
  have hword : ∀ b : Bool, (BitVec.ofBool b).setWidth 64 = (if b then 1 else 0 : Word) := by decide
  exact readsAs_of_readElement .cfgFlags rfl rfl (congrArg some (hword _))

end Sys2Proof.Machine
end

section
/-! PROOFS. The host port and the register map (20_memory.md sections 2 to 4, 30_encoding.md section 2). -/

namespace Sys2Proof.Machine

/-- Settles O13: each access meets the rule of its fault. -/
theorem readOnlyWritesAndCmdReadsHaveNoEffect : Obligations.ReadOnlyWritesAndCmdReadsHaveNoEffect := by
  refine ⟨fun s off width v hreadOnly => ?_, fun s width => ?_⟩
  · exact hostWrite_of_mem_writeFaults v ((mem_writeFaults off width s _).mpr (.inr (.inr (.inl ⟨hreadOnly, rfl⟩))))
  · exact hostRead_of_mem_readFaults ((mem_readFaults 0x000 width s _).mpr (.inr (.inr (.inl ⟨by decide, rfl⟩))))

/-- Settles O14: every access but the read of STATUS meets the rule of F_BUSY_ACCESS, and that one meets none. -/
theorem busyBlockAllowsOnlyAStatusRead : Obligations.BusyBlockAllowsOnlyAStatusRead := by
  refine fun s hbusy => ⟨fun off width v => ?_, fun off width hother => ?_, hostRead_status s⟩
  · exact hostWrite_of_mem_writeFaults v ((mem_writeFaults off width s _).mpr (.inr (.inr (.inr ⟨hbusy, rfl⟩))))
  · exact hostRead_of_mem_readFaults
      ((mem_readFaults off width s _).mpr (.inr (.inr (.inr (.inl ⟨⟨hbusy, hother⟩, rfl⟩)))))

/-- Settles O16: each offset's word, stored by a write that meets no rule of R279. -/
theorem configurationRegistersStoreTheWholeWord : Obligations.ConfigurationRegistersStoreTheWholeWord :=
  fun s v hidle =>
    ⟨hostWrite_eq 0x010 v s .cfgD rfl rfl hidle (by decide), hostWrite_eq 0x018 v s .cfgKeylen rfl rfl hidle (by decide),
      hostWrite_eq 0x020 v s .cfgL rfl rfl hidle (by decide), hostWrite_eq 0x028 v s .cfgR rfl rfl hidle (by decide),
      hostWrite_eq 0x038 v s .msgLen rfl rfl hidle (by decide), hostWrite_eq 0x040 v s .encLevel rfl rfl hidle (by decide),
      hostWrite_eq 0x048 v s .encIndex rfl rfl hidle (by decide), hostWrite_eq 0x050 v s .encZ rfl rfl hidle (by decide),
      hostWrite_eq 0x058 v s .encP rfl rfl hidle (by decide)⟩

/-- Settles O17: `readsAs_cfgFlags` on the state before and the state after the write. -/
theorem cfgFlagsKeepsItsReservedBitsZero : Obligations.CfgFlagsKeepsItsReservedBitsZero := by
  refine ⟨rfl, fun s v hidle => ?_⟩
  have hwrite : hostWrite 0x030 8 v s = { s with rOverride := v.getLsbD 0 } :=
    hostWrite_eq 0x030 v s .cfgFlags rfl rfl hidle (by decide)
  exact ⟨hwrite, readsAs_cfgFlags s, hwrite ▸ readsAs_cfgFlags { s with rOverride := v.getLsbD 0 }⟩

/-- Settles O18: the write stores the word, and the word stored is the value of the read. -/
theorem writtenWordIsReadBack : Obligations.WrittenWordIsReadBack := by
  intro s off v hidle hreadWrite ha hflags
  obtain ⟨e, he, hrw⟩ := exists_element_of_readWrite hreadWrite
  obtain ⟨hwrite, hidle'⟩ := hostWrite_of_readWrite he hrw ha hidle v
  have hnotFlags : e ≠ .cfgFlags := by
    rintro rfl
    exact hflags (offset_of_elementAt_aligned he ha).symm
  have hvalue := readElement_writeElement_self hrw hnotFlags (nBuf_index_lt he) v s
  rw [hwrite, hostRead_eq off _ e v he ha hidle' hvalue]
  simp

/-- Settles O19: the word at another offset is another word of the map. -/
theorem writeLeavesOtherWordsUnchanged : Obligations.WriteLeavesOtherWordsUnchanged := by
  intro s off v hidle hreadWrite ha
  obtain ⟨e, he, hrw⟩ := exists_element_of_readWrite hreadWrite
  have hcmd : e ≠ .cmd := fun h => by simp [h, Element.access] at hrw
  have hoffset := offset_of_elementAt_aligned he ha
  rw [(hostWrite_of_readWrite he hrw ha hidle v).1]
  refine ⟨fun other hother hne => ?_, fun a houtside => read_writeElement_mem (hoffset.symm ▸ houtside) v s⟩
  unfold readValue
  cases he' : elementAt other with
  | none => rfl
  | some e' =>
    have hoffset' := offset_of_elementAt_aligned he' hother
    exact readElement_writeElement_of_ne hcmd (by omega) v s

/-- Settles O20: the word is stored in the byte memory. -/
theorem keyAndMessageWordsAreBigEndian : Obligations.KeyAndMessageWordsAreBigEndian := by
  intro s off a v hidle ha hregion hbyte
  obtain ⟨e, he, hrw, hbase⟩ := exists_element_of_inByteRegion hregion ha
  rw [(hostWrite_of_readWrite he hrw ha hidle v).1, writeElement_mem_of_byteBase hbase, Memory.read_writeWord,
    if_pos (by omega), Nat.add_sub_cancel_left, byteOfWord]

/-- Settles O21: a read leaves the block as it was but for FAULT, so the second read has the same result. -/
theorem readsHaveNoSideEffect : Obligations.ReadsHaveNoSideEffect := by
  intro s off width
  obtain ⟨hsame, hhost⟩ := hostRead_effect off width s
  refine ⟨hsame, readResult off width s, hhost, ?_⟩
  have hresult : readResult off width (hostRead off width s) = readResult off width s := by
    simp only [readResult, readFaults_of_sameApartFromFault hsame, readValue_of_sameApartFromFault hsame]
  rw [(hostRead_effect off width _).2, hhost, hresult]

/-- Settles O22: for each kind of undefined word, which word of the map stands at the offset and why it has no value. -/
theorem undefinedWordsAreNotRead : Obligations.UndefinedWordsAreNotRead := by
  intro s off hidle ha hundefined
  rcases hundefined with ⟨hlow, hhigh, h⟩ | ⟨hlow, hhigh, h⟩ | ⟨hlow, hhigh, h⟩ | ⟨hlow, hhigh, h⟩ | ⟨hlow, hhigh, h⟩ |
    ⟨j, hj, rfl, h⟩ | ⟨hregion, a, hbyte, h⟩
  · have hoff : off = 0x060 ∨ off = 0x068 ∨ off = 0x070 ∨ off = 0x078 := by omega
    rcases hoff with rfl | rfl | rfl | rfl
    · exact recordsOnly_of_undefined .pbD rfl ha hidle (by decide) (by simp [readElement, behind, h])
    · exact recordsOnly_of_undefined .pbKeylen rfl ha hidle (by decide) (by simp [readElement, behind, h])
    · exact recordsOnly_of_undefined .pbL rfl ha hidle (by decide) (by simp [readElement, behind, h])
    · exact recordsOnly_of_undefined .pbR rfl ha hidle (by decide) (by simp [readElement, behind, h])
  · have hoff : off = 0x080 ∨ off = 0x088 := by omega
    rcases hoff with rfl | rfl
    · exact recordsOnly_of_undefined .stepCtr rfl ha hidle (by decide) (by simp [readElement, behind, h])
    · exact recordsOnly_of_undefined .sReg rfl ha hidle (by decide) (by simp [readElement, behind, h])
  · exact recordsOnly_of_undefined _ (elementAt_w off hlow hhigh) ha hidle Access.noConfusion (by simp [readElement, h])
  · exact recordsOnly_of_undefined _ (elementAt_cvOut off hlow hhigh) ha hidle Access.noConfusion
      (by simp [readElement, h])
  · exact recordsOnly_of_undefined _ (elementAt_digest off hlow hhigh) ha hidle Access.noConfusion
      (by simp [readElement, h])
  · exact recordsOnly_of_undefined _ (elementAt_nBuf_word j hj) ha hidle Access.noConfusion
      (by simp [readElement, hj, h])
  · obtain ⟨e, he, hrw, hbase⟩ := exists_element_of_inByteRegion hregion ha
    refine recordsOnly_of_undefined e he ha hidle (by simp [hrw]) ?_
    rw [readElement_of_byteBase hbase]
    exact Memory.readWord_eq_none s.mem off a hbyte h

/-- Settles O23: a bit of the word is found field by field from the low end, and a wider field by dropping the fields below
it; the codes one by one. -/
theorem statusWordHoldsItsFields : Obligations.StatusWordHoldsItsFields := by
  refine ⟨fun st => ⟨?_, ?_, ?_, status_word_errcode st, ?_, ?_, ?_, ?_, status_word_low_reserved st,
    status_word_high_reserved st⟩, rfl, rfl, rfl, rfl, rfl, rfl, rfl, rfl, rfl, rfl, rfl⟩ <;>
    simp only [Status.word, BitVec.getLsbD_append] <;> simp

/-- Settles O24: for each word, its offset and its value. -/
theorem definedRegistersReadTheirValue : Obligations.DefinedRegistersReadTheirValue := by
  refine fun s => ⟨readsAs_of_readElement .status rfl rfl rfl, fun h => ⟨?_, ?_, ?_, ?_⟩, fun h => ⟨?_, ?_, fun t ht => ?_⟩,
    fun h t ht => ?_, fun h t ht => ?_, fun t ht h => ?_⟩
  · exact readsAs_of_readElement .pbD rfl rfl (if_pos h)
  · exact readsAs_of_readElement .pbKeylen rfl rfl (if_pos h)
  · exact readsAs_of_readElement .pbL rfl rfl (if_pos h)
  · exact readsAs_of_readElement .pbR rfl rfl (if_pos h)
  · exact readsAs_of_readElement .stepCtr rfl rfl (if_pos h)
  · exact readsAs_of_readElement .sReg rfl rfl (if_pos h)
  · exact readsAs_of_readElement _ (elementAt_w_word t ht) (by omega) (by simp [readElement, wordOf, h, ht])
  · exact readsAs_of_readElement _ (elementAt_cvOut_word t ht) (by omega) (by simp [readElement, wordOf, h, ht])
  · exact readsAs_of_readElement _ (elementAt_digest_word t ht) (by omega) (by simp [readElement, wordOf, h, ht])
  · exact readsAs_of_readElement _ (elementAt_nBuf_word t ht) (by omega) (by simp [readElement, h, ht])

end Sys2Proof.Machine
end

section
/-! SUPPORT. A WAIT over a pending command (30_encoding.md R101, 70_reset_and_hazards.md R311): one turn of it, and the
core's turn after a poll. -/

namespace Sys2Proof.Machine

/-- BUSY is bit 0 of STATUS (10_state.md R29). -/
theorem status_word_busy (st : Status) : st.word.getLsbD 0 = st.busy := by
  simp only [Status.word, BitVec.getLsbD_append]
  simp

theorem waitTurn_of_busy {s : State} (h : s.status.busy = true) :
    waitTurn s = s.withMoves (.coreTurn :: .wait :: s.host.moves) := by
  rw [waitTurn, status_word_busy, if_pos h]

theorem waitTurn_of_idle {s : State} (h : s.status.busy = false) : waitTurn s = s := by
  rw [waitTurn, status_word_busy, h]
  rfl

theorem step_wait {s : State} {rest : List HostMove} (h : s.host.moves = .wait :: rest) :
    step s = .next (waitTurn (s.withMoves rest)) :=
  step_of_over (nextTurn_cons h)

/-- A command clears BUSY and leaves FAULT, or records a fault; in neither case does it touch the schedule. -/
theorem exec_clears_busy_or_faults (i : Instr) (s : State) : ∃ t, exec i s = .next t ∧ t.host = s.host ∧
    ((t.status.busy = false ∧ t.fault = s.fault) ∨ t.fault ≠ []) := by
  rcases exec_cases i s with ⟨code, _, _, h⟩ | h | ⟨u, h, hfault, hhost⟩
  · exact ⟨_, h, rfl, .inl ⟨rfl, rfl⟩⟩
  · refine ⟨_, h, by rw [recordFault_eq], .inr ?_⟩
    exact List.ne_nil_of_mem ((mem_recordFault .undefinedInput .undefinedInput s).mpr (.inr rfl))
  · exact ⟨_, h, hhost, .inl ⟨rfl, hfault⟩⟩

/-- So does the core's turn, whatever word is pending. -/
theorem step_core_clears_busy_or_faults {s u : State} (hturn : nextTurn s = .core u) : ∃ t, step s = .next t ∧
    t.host = u.host ∧ ((t.status.busy = false ∧ t.fault = u.fault) ∨ t.fault ≠ []) := by
  cases hdecode : decode u.pending.value with
  | ok i =>
    obtain ⟨t, ht, hend⟩ := exec_clears_busy_or_faults i u
    exact ⟨t, (step_of_decode_ok hturn hdecode).trans ht, hend⟩
  | error e => exact ⟨_, step_of_decode_error hturn hdecode, rfl, .inl ⟨rfl, rfl⟩⟩

/-- The first of `n + 1` steps. -/
theorem run_succ_of_step {M : Host.Core} {s t : M.State} (h : M.step s = .next t) (n : Nat) :
    M.run (n + 1) s = M.run n t := by
  rw [Host.Core.run, h]

end Sys2Proof.Machine
end

section
/-! SUPPORT. The memory as an operand (20_memory.md R70): two memories that agree on the bytes a command reads give it the
same operand. -/

namespace Sys2Proof.Machine

/-- Recording a fault does not read the memory. -/
theorem recordFault_with_mem (f : ModelFault) (s : State) (m : Memory) :
    recordFault f { s with mem := m } = { recordFault f s with mem := m } := by
  unfold recordFault
  by_cases h : f ∈ s.fault
  · rw [if_pos h, if_pos h]
  · rw [if_neg h, if_neg h]

theorem exec_configure_of_configError {s : State} {code : ErrCode} (h : configError s = some code) :
    exec .configure s = raiseError code s := by
  show execConfigure s = _
  rw [execConfigure, h]

section
variable {s t : State} {m : Memory}

/-- HASH on another memory with the same message bytes (43_tree_scheduler.md R208). -/
theorem exec_hash_with_mem (hmsg : messageBytes { s with mem := m } = messageBytes s) (h : exec .hash s = .next t) :
    exec .hash { s with mem := m } = .next { t with mem := m } := by
  rcases execHash_cases s with ⟨hpb, he⟩ | ⟨hpb, hlen, he⟩ | ⟨hpb, hlen, hnone, he⟩ | ⟨msg, hpb, hlen, hsome, he⟩ <;>
    obtain rfl := Host.Outcome.next.inj (he.symm.trans h)
  · exact exec_hash_of_not_pbValid hpb
  · exact exec_hash_of_too_long hpb hlen
  · rw [← recordFault_with_mem]
    exact exec_hash_of_undefined hpb hlen (hmsg.trans hnone)
  · rw [accRun_snd]
    exact exec_hash_of_messageBytes hpb hlen (hmsg.trans hsome)

/-- CONFIGURE on another memory with the same key bytes (42_parameter_encoder.md R173). -/
theorem exec_configure_with_mem
    (hkey : keyBytes { s with mem := m } s.cfgKeylen.toNat = keyBytes s s.cfgKeylen.toNat)
    (h : exec .configure s = .next t) : exec .configure { s with mem := m } = .next { t with mem := m } := by
  rcases execConfigure_cases s with ⟨code, hchecks, he⟩ | ⟨hchecks, hnone, he⟩ | ⟨key, hchecks, hsome, he⟩ <;>
    obtain rfl := Host.Outcome.next.inj (he.symm.trans h)
  · exact exec_configure_of_configError hchecks
  · rw [← recordFault_with_mem]
    exact exec_configure_of_undefined hchecks (hkey.trans hnone)
  · exact exec_configure_of_keyBytes hchecks (hkey.trans hsome)

end

end Sys2Proof.Machine
end

section
/-! PROOFS. WAIT, the checks of CONFIGURE, and the bytes that HASH and CONFIGURE read (30_encoding.md section 7,
42_parameter_encoder.md section 1, 43_tree_scheduler.md section 4). -/

namespace Sys2Proof.Machine

/-- Settles O60: a poll that finds BUSY = 1, the core's turn, and a second poll. -/
theorem waitEndsUnlessTheCommandFaults : Obligations.WaitEndsUnlessTheCommandFaults := by
  intro s rest hmoves hbusy hfault
  have hpoll : step s = .next (s.withMoves (.coreTurn :: .wait :: rest)) := by
    rw [step_wait hmoves, waitTurn_of_busy (s := s.withMoves rest) hbusy]
    rfl
  have hturn : nextTurn (s.withMoves (.coreTurn :: .wait :: rest)) = .core (s.withMoves (.wait :: rest)) :=
    nextTurn_eq_core (rest := .wait :: rest) hbusy hfault (.inl rfl)
  obtain ⟨t, hcore, hhost, hend⟩ := step_core_clears_busy_or_faults hturn
  have hwait : t.host.moves = .wait :: rest := congrArg HostAgent.moves hhost
  refine ⟨waitTurn (t.withMoves rest), ?_, ?_⟩
  · calc Sys2Proof.core.run 3 s
      _ = Sys2Proof.core.run 2 (s.withMoves (.coreTurn :: .wait :: rest)) := run_succ_of_step (M := Sys2Proof.core) hpoll 2
      _ = Sys2Proof.core.run 1 t := run_succ_of_step (M := Sys2Proof.core) hcore 1
      _ = .next (waitTurn (t.withMoves rest)) := run_succ_of_step (M := Sys2Proof.core) (step_wait hwait) 0
  · rcases hend with ⟨hidle, hsame⟩ | hfaulted
    · rw [waitTurn_of_idle (s := t.withMoves rest) hidle]
      exact .inl ⟨rfl, hidle, hsame.trans hfault⟩
    · right
      rwa [waitTurn_fault]

/-- Settles O39: the four checks in order. -/
theorem configureReportsTheFirstFailingCheck : Obligations.ConfigureReportsTheFirstFailingCheck := by
  intro s
  refine ⟨fun hd => ?_, fun hd hkey => ?_, fun hd hkey hl => ?_, fun hd hkey hl hr => ?_⟩ <;>
    refine endsInError_of_eq_raiseError (exec_configure_of_configError ?_) <;> unfold configError
  · rw [if_pos hd]
  · rw [if_neg hd, if_pos hkey]
  · rw [if_neg hd, if_neg hkey, if_pos hl]
  · rw [if_neg hd, if_neg hkey, if_neg hl, if_pos hr]

/-- Settles O53: the operand of each command is read byte by byte. -/
theorem bytesBeyondTheLengthAreNotRead : Obligations.BytesBeyondTheLengthAreNotRead :=
  fun s m => ⟨fun hsame _ => exec_hash_with_mem (Memory.readBytes_congr m s.mem s.msgLen.toNat msgBase hsame),
    fun hsame _ => exec_configure_with_mem (Memory.readBytes_congr m s.mem s.cfgKeylen.toNat keyBase hsame)⟩

end Sys2Proof.Machine
end

section
/-! SUPPORT. The bits of the digest (43_tree_scheduler.md R207): the number of a chaining value is that of its bit string, and
each digest byte holds eight of its bits. -/

namespace Sys2Proof.Machine

/-- A bit string's number, cut in two. -/
theorem numberOfBits_append (x y : List Bool) :
    numberOfBits (x ++ y) = numberOfBits x * 2 ^ y.length + numberOfBits y := by
  induction y using List.reverseRecOn with
  | nil => simp [numberOfBits]
  | append_singleton y b ih =>
    rw [← List.append_assoc, numberOfBits_concat, numberOfBits_concat, ih, Nat.bit_val, Nat.bit_val, List.length_append,
      List.length_singleton, pow_succ]
    ring

/-- A word's bits stand for its value. -/
theorem numberOfBits_bitsMsbFirst {n : Nat} (v : BitVec n) : numberOfBits (bitsMsbFirst v) = v.toNat := by
  refine Nat.eq_of_testBit_eq fun i => ?_
  rw [testBit_numberOfBits, BitVec.testBit_toNat]
  by_cases hi : i < n
  · have hmirror : n - 1 - (n - 1 - i) = i := by omega
    rw [List.getElem?_reverse (by simpa using hi), bitsMsbFirst_length, bitsMsbFirst_getElem? v (by omega),
      BitVec.getMsbD, hmirror, decide_eq_true (by omega)]
    simp
  · rw [List.getElem?_eq_none (by simpa using hi), BitVec.getLsbD_of_ge v i (by omega)]
    rfl

/-- The number of a list of words, the first the most significant, is that of their bits. -/
theorem foldl_words_eq_numberOfBits (ws : List Word) :
    ws.foldl (fun n v => n * 2 ^ 64 + v.toNat) 0 = numberOfBits (ws.flatMap bitsMsbFirst) := by
  induction ws using List.reverseRecOn with
  | nil => rfl
  | append_singleton ws v ih =>
    rw [List.foldl_append, List.flatMap_append, numberOfBits_append, List.flatMap_singleton, bitsMsbFirst_length,
      numberOfBits_bitsMsbFirst, ← ih]
    rfl

theorem numberOfCv_eq (cv : Cv) : numberOfCv cv = numberOfBits (bitsOfCv cv) :=
  foldl_words_eq_numberOfBits cv.toList

/-- Bit m of a chaining value's number, from the low end, is bit 1023 - m of its bit string. -/
theorem testBit_numberOfCv (cv : Cv) {m : Nat} (hm : m < 1024) :
    (numberOfCv cv).testBit m = (bitsOfCv cv)[1023 - m]?.getD false := by
  rw [numberOfCv_eq, testBit_numberOfBits, List.getElem?_reverse (by simpa using hm), bitsOfCv_length]

/-- The last d bits of a number, followed by `fill` zeros (R207). -/
theorem testBit_leftJustified (value d fill i : Nat) :
    (value % 2 ^ d * 2 ^ fill).testBit i = (decide (fill ≤ i) && (decide (i - fill < d) && value.testBit (i - fill))) := by
  rw [Nat.testBit_mul_two_pow, Nat.testBit_mod_two_pow]

theorem digestBytes_getD (cv : Cv) (d : Nat) {a : Nat} (ha : a < ceilDiv d 8) : (digestBytes cv d).getD a 0 =
    BitVec.ofNat 8 (numberOfCv cv % 2 ^ d * 2 ^ (8 * ceilDiv d 8 - d) / 2 ^ (8 * (ceilDiv d 8 - 1 - a))) := by
  simp [digestBytes, ha]

/-- Bit n of the digest bytes is bit n of the last d bits of the chaining value, and 0 beyond them. -/
theorem digestBytes_getMsbD (cv : Cv) {d a r : Nat} (hd : d ≤ 1024) (hr : r < 8) :
    ((digestBytes cv d).getD a 0).getMsbD r =
      if 8 * a + r < d then (bitsOfCv cv).getD (1024 - d + (8 * a + r)) false else false := by
  have hbytes : ceilDiv d 8 = (d + 7) / 8 := rfl
  by_cases ha : a < ceilDiv d 8
  · have hindex : 8 - 1 - r + 8 * (ceilDiv d 8 - 1 - a) = 8 * ceilDiv d 8 - 1 - (8 * a + r) := by omega
    rw [digestBytes_getD cv d ha, BitVec.getMsbD, BitVec.getLsbD_ofNat, Nat.testBit_div_two_pow, hindex,
      testBit_leftJustified, decide_eq_true hr, decide_eq_true (by omega), Bool.true_and, Bool.true_and]
    split
    · have hbit : 8 * ceilDiv d 8 - 1 - (8 * a + r) - (8 * ceilDiv d 8 - d) = d - 1 - (8 * a + r) := by omega
      have hmirror : 1023 - (d - 1 - (8 * a + r)) = 1024 - d + (8 * a + r) := by omega
      rw [hbit, testBit_numberOfCv cv (by omega), hmirror, decide_eq_true (by omega), decide_eq_true (by omega)]
      rfl
    · rw [decide_eq_false (by omega)]
      rfl
  · have hbeyond : (digestBytes cv d).getD a 0 = 0 := List.getD_eq_default _ _ (by simp [digestBytes]; omega)
    rw [hbeyond, if_neg (by omega)]
    simp

/-- Bit n of the DIGEST words is bit n % 8 of digest byte n / 8. -/
theorem digestWords_bit (cv : Cv) (d : Nat) {n : Nat} (hn : n < 512) :
    ((digestWords cv d).toList.flatMap bitsMsbFirst).getD n false = ((digestBytes cv d).getD (n / 8) 0).getMsbD (n % 8) := by
  have hsplit : n = 64 * (n / 64) + n % 64 := by omega
  have hbyte : 8 * (n / 64) + n % 64 / 8 = n / 8 := by omega
  have hbit : n % 64 % 8 = n % 8 := by omega
  have hword : (digestWords cv d).toList[n / 64]? = some (wordAt (digestBytes cv d) (n / 64)) := by
    simp [digestWords, show n / 64 < 8 by omega]
  rw [List.getD_eq_getElem?_getD, hsplit, getElem?_flatMap_of_length bitsMsbFirst_length _ _ (by omega), hword,
    Option.bind_some, bitsMsbFirst_getElem? _ (by omega), ← hsplit, Option.getD_some, getMsbD_wordAt _ _ (by omega),
    hbyte, hbit]

end Sys2Proof.Machine
end

section
/-! SUPPORT. The shape of the tree (43_tree_scheduler.md R203 to R205, R211, R213): the level, index, z and p of every call,
from the number of levels and the length of the string alone. -/

namespace Sys2Proof.Machine

/-- What a call says of its place in the tree. -/
structure NodeShape where
  level : Nat
  index : Nat
  z : Nat
  p : Nat

def NodeCall.shape (c : NodeCall) : NodeShape := ⟨c.level, c.index, c.z, c.p⟩

/-- The padding count of block i of a string of `len` bits (R202). -/
def blockPadding (len cap i : Nat) : Nat :=
  if i + 1 < padCount len cap then 0 else padCount len cap * cap - len

/-- A PAR level of the tree (R203). -/
def parShape (level len : Nat) : List NodeShape :=
  (List.range (padCount len 4096)).map fun i =>
    ⟨level, i, if padCount len 4096 = 1 then 1 else 0, blockPadding len 4096 i⟩

/-- The sequential level of the tree (R204). -/
def seqShape (level len : Nat) : List NodeShape :=
  (List.range (padCount len 3072)).map fun i =>
    ⟨level, i, if i + 1 = padCount len 3072 then 1 else 0, blockPadding len 3072 i⟩

/-- The levels of the tree from `level` on, `n` PAR levels before the sequential one (R205). -/
def treeShape : Nat → Nat → Nat → List NodeShape
  | 0, level, len => seqShape level len
  | n + 1, level, len =>
    if padCount len 4096 = 1 then parShape level len
    else parShape level len ++ treeShape n (level + 1) (1024 * padCount len 4096)

theorem parCalls_shape (x : List Bool) (level : Nat) :
    (parCalls x level).map NodeCall.shape = parShape level x.length := by
  simp only [parCalls, zipIdx_padBlocks, padBlocks_length, List.map_map]
  rfl

theorem seqCallsFrom_shape (pb : ParamBlock) (level j : Nat) (blocks : List (List Bool × Nat)) (i : Nat) (cv : Cv) :
    (seqCallsFrom pb level j blocks i cv).map NodeCall.shape =
      (blocks.zipIdx i).map fun b => ⟨level, b.2, if b.2 + 1 = j then 1 else 0, b.1.2⟩ := by
  induction blocks generalizing i cv with
  | nil => rfl
  | cons b blocks ih => rw [seqCallsFrom, List.map_cons, ih, List.zipIdx_cons, List.map_cons]; rfl

/-- The shape of the calls depends on the length of the string alone (R213). -/
theorem topCallsFrom_shape (pb : ParamBlock) (n level : Nat) (x : List Bool) :
    (topCallsFrom pb n level x).map NodeCall.shape = treeShape n level x.length := by
  induction n generalizing level x with
  | zero =>
    rw [topCallsFrom, seqCallsFrom_shape, zipIdx_padBlocks, padBlocks_length, List.map_map]
    rfl
  | succ n ih =>
    have hlen : (par pb x level).length = 1024 * padCount x.length 4096 := by rw [par_length, parCalls_length]
    rw [topCallsFrom, treeShape, hlen]
    by_cases hone : padCount x.length 4096 = 1
    · rw [if_pos (by omega), if_pos hone, parCalls_shape]
    · rw [if_neg (by omega), if_neg hone, List.map_append, parCalls_shape, ih, hlen]

theorem topCalls_shape (pb : ParamBlock) (x : List Bool) :
    (topCalls pb x).map NodeCall.shape = treeShape pb.l.toNat 1 x.length :=
  topCallsFrom_shape pb pb.l.toNat 1 x

/-! ### Numbering (R211) -/

/-- The node (level, index) of a call. -/
def NodeShape.node (q : NodeShape) : Nat × Nat := (q.level, q.index)

/-- Distinct nodes at levels `lo` to `hi`, with indices from 0 without gaps within each level (R211). -/
structure Numbered (lo hi : Nat) (nodes : List (Nat × Nat)) : Prop where
  nodup : nodes.Nodup
  level_ge : ∀ q ∈ nodes, lo ≤ q.1
  level_le : ∀ q ∈ nodes, q.1 ≤ hi
  contiguous : ∀ q ∈ nodes, ∀ i, i < q.2 → (q.1, i) ∈ nodes

/-- One level with `count` nodes. -/
theorem numbered_level (level count : Nat) : Numbered level level ((List.range count).map fun i => (level, i)) where
  nodup := List.nodup_range.map fun _ _ h => (Prod.mk.inj h).2
  level_ge := by simp
  level_le := by simp
  contiguous := by
    simp only [List.mem_map, List.mem_range]
    rintro _ ⟨j, hj, rfl⟩ i hi
    exact ⟨i, hi.trans hj, rfl⟩

theorem Numbered.mono {lo hi hi' : Nat} {nodes : List (Nat × Nat)} (h : Numbered lo hi nodes) (hle : hi ≤ hi') :
    Numbered lo hi' nodes :=
  { h with level_le := fun q hq => (h.level_le q hq).trans hle }

/-- A level, and then the levels above it. -/
theorem Numbered.append {level hi : Nat} {nodes above : List (Nat × Nat)} (h : Numbered level level nodes)
    (habove : Numbered (level + 1) hi above) (hle : level ≤ hi) : Numbered level hi (nodes ++ above) where
  nodup := List.nodup_append.mpr ⟨h.nodup, habove.nodup, fun q hq q' hq' heq => by
    have hlow := h.level_le q hq
    have hhigh := habove.level_ge q' hq'
    rw [heq] at hlow
    omega⟩
  level_ge q hq := (List.mem_append.mp hq).elim (h.level_ge q) fun hq => by
    have hhigh := habove.level_ge q hq
    omega
  level_le q hq := (List.mem_append.mp hq).elim (fun hq => (h.level_le q hq).trans hle) (habove.level_le q)
  contiguous q hq i hi := (List.mem_append.mp hq).elim (fun hq => List.mem_append_left _ (h.contiguous q hq i hi))
    fun hq => List.mem_append_right _ (habove.contiguous q hq i hi)

theorem numbered_parShape (level len : Nat) : Numbered level level ((parShape level len).map NodeShape.node) := by
  rw [parShape, List.map_map]
  exact numbered_level level _

theorem numbered_seqShape (level len : Nat) : Numbered level level ((seqShape level len).map NodeShape.node) := by
  rw [seqShape, List.map_map]
  exact numbered_level level _

/-- The whole tree is numbered level by level. -/
theorem numbered_treeShape (n level len : Nat) :
    Numbered level (level + n) ((treeShape n level len).map NodeShape.node) := by
  induction n generalizing level len with
  | zero => exact numbered_seqShape level len
  | succ n ih =>
    rw [treeShape]
    split
    · exact (numbered_parShape level len).mono (Nat.le_add_right level _)
    · rw [List.map_append]
      have habove := ih (level + 1) (1024 * padCount len 4096)
      rw [Nat.add_right_comm, Nat.add_assoc] at habove
      exact (numbered_parShape level len).append habove (Nat.le_add_right level _)

/-! ### Height (R214) -/

theorem level_of_mem_parShape {level len : Nat} {q : NodeShape} (h : q ∈ parShape level len) : q.level = level := by
  obtain ⟨i, _, rfl⟩ := List.mem_map.mp h
  rfl

/-- A string of at most 4096·4^m bits is reduced to one node in m levels more. -/
theorem level_le_of_mem_treeShape {m n level len : Nat} (hlen : len ≤ 4096 * 4 ^ m) (hn : m < n) {q : NodeShape}
    (h : q ∈ treeShape n level len) : q.level ≤ level + m := by
  induction m generalizing n level len with
  | zero =>
    obtain ⟨n, rfl⟩ := Nat.exists_eq_succ_of_ne_zero (Nat.ne_of_gt hn)
    have hone : padCount len 4096 = 1 := by
      simp only [padCount, ceilDiv]
      omega
    rw [treeShape, if_pos hone] at h
    exact (level_of_mem_parShape h).le
  | succ m ih =>
    obtain ⟨n, rfl⟩ := Nat.exists_eq_succ_of_ne_zero (Nat.ne_of_gt (Nat.zero_lt_of_lt hn))
    have hnext : 1024 * padCount len 4096 ≤ 4096 * 4 ^ m := by
      have hpos : 0 < 4 ^ m := by positivity
      rw [pow_succ] at hlen
      simp only [padCount, ceilDiv]
      omega
    have hpar (hq : q ∈ parShape level len) : q.level ≤ level + (m + 1) := by
      have hlevel := level_of_mem_parShape hq
      omega
    rw [treeShape] at h
    split at h
    · exact hpar h
    · rcases List.mem_append.mp h with hq | hq
      · exact hpar hq
      · have hlevel := ih hnext (Nat.lt_of_succ_lt_succ hn) hq
        omega

end Sys2Proof.Machine
end

section
/-! PROOFS. The digest and the shape of the tree (43_tree_scheduler.md sections 3 and 5). -/

namespace Sys2Proof.Machine

/-- Settles O47: bit n of the words is a bit of digest byte n / 8. -/
theorem digestIsTheLastBitsLeftJustified : Obligations.DigestIsTheLastBitsLeftJustified := by
  intro cv d _ hd n hn
  have hsplit : 8 * (n / 8) + n % 8 = n := by omega
  rw [digestWords_bit cv d hn, digestBytes_getMsbD cv (by omega) (by omega), hsplit]

/-- Settles O49: the nodes are those of the tree's shape, which is numbered level by level. -/
theorem callsHaveDistinctNodes : Obligations.CallsHaveDistinctNodes := by
  intro pb x
  have hnodes : (topCalls pb x).map (fun c => (c.level, c.index)) =
      (treeShape pb.l.toNat 1 x.length).map NodeShape.node := by
    rw [← topCalls_shape, List.map_map]
    rfl
  have hnumbered := numbered_treeShape pb.l.toNat 1 x.length
  rw [← hnodes] at hnumbered
  refine ⟨hnumbered.nodup, fun c hc => ?_⟩
  have hmem := List.mem_map_of_mem (f := fun c => (c.level, c.index)) hc
  refine ⟨hnumbered.level_ge _ hmem, Nat.add_comm 1 _ ▸ hnumbered.level_le _ hmem, fun i hi => ?_⟩
  obtain ⟨e, he, hnode⟩ := List.mem_map.mp (hnumbered.contiguous _ hmem i hi)
  exact ⟨e, he, Prod.mk.inj hnode⟩

/-- Settles O50: both lists of calls have the shape that L and the length give. -/
theorem keyDoesNotChangeTheTreeShape : Obligations.KeyDoesNotChangeTheTreeShape := by
  intro pb qb x y hl hlen
  have hshape : (topCalls pb x).map NodeCall.shape = (topCalls qb y).map NodeCall.shape := by
    rw [topCalls_shape, topCalls_shape, hl, hlen]
  have hfields := congrArg (List.map fun q : NodeShape => (q.level, q.index, q.z, q.p)) hshape
  rw [List.map_map, List.map_map] at hfields
  exact hfields

/-- Settles O51: a message the block accepts has at most 2^64 = 4096·4^26 bits. -/
theorem defaultHeightNeverReachesTheSequentialLevel : Obligations.DefaultHeightNeverReachesTheSequentialLevel := by
  intro pb msg hl hcap c hc
  obtain ⟨_, _, hlegal⟩ := Config.msgCapBytes_legal
  have hlen : (bitsOfBytes msg).length ≤ 4096 * 4 ^ 26 := by
    rw [bitsOfBytes_length]
    omega
  have hshape : c.shape ∈ treeShape pb.l.toNat 1 (bitsOfBytes msg).length :=
    topCalls_shape pb (bitsOfBytes msg) ▸ List.mem_map_of_mem hc
  exact level_le_of_mem_treeShape hlen (by omega) hshape

end Sys2Proof.Machine
end
